-- ==== Sys2Proof/Word.lean ====
section
/-! DEFINITION. The words of the block: every register and every bus transfer is 32 bits (00_scope.md R9, 20_memory.md R73),
a bus address is an 18-bit byte offset (R9, R70). -/

namespace Sys2Proof

/-- A 32-bit bus word; bit 0 is the least significant (00_scope.md R11). -/
abbrev Word := BitVec 32

/-- One byte of a bit buffer as the model's memory keeps it (20_memory.md R79). -/
abbrev Byte := BitVec 8

/-- A byte offset on the slave port, 0x00000 to 0x3FFFF (20_memory.md R70). -/
abbrev Offset := BitVec 18

end Sys2Proof
end

