-- ==== Sys2Proof/Syntax.lean ====
section
/-! DEFINITION. The commands of the block (30_encoding.md R103), the values a host puts on its ports in one cycle
(20_memory.md R70), and the host-side notation for bus transactions (30_encoding.md R110-R112). -/

namespace Sys2Proof

/-- The seven commands, one constructor per row of spec/opcode_table.json (30_encoding.md R103). None has an immediate field:
the operands are ARG, ARG2 and IN (R101, R102). -/
inductive Instr where
  | layout
  | pclass
  | dpos
  | encode
  | syndrome
  | correct
  | decode
deriving DecidableEq, Repr

/-- The control and status registers, in the order of their offsets (10_state.md, table of section 2). -/
inductive Csr where
  | cmd
  | status
  | arg
  | arg2
  | res0
  | res1
  | res2
  | outLen
  | cfgMmax
  | cfgNmax
deriving DecidableEq, Repr

/-- The input ports in one clock cycle (20_memory.md R70). -/
structure PortIn where
  rst   : Bool
  we    : Bool
  re    : Bool
  addr  : Offset
  wdata : Word
deriving DecidableEq, Repr

/-- What the host does in coming cycles: drive the ports for one cycle, or poll STATUS once a cycle until it reads BUSY = 0
(the loop of WAIT, 30_encoding.md R111). -/
inductive HostStep where
  | drive (p : PortIn)
  | poll
deriving DecidableEq, Repr

/-- Host statements: the primitive ones, each exactly one transaction (30_encoding.md R110), and the pseudo-instructions
(R111, R112). -/
inductive Stmt where
  | wrReg (r : Csr) (v : Word)
  | rdReg (r : Csr)
  | wrIn (j : Nat) (v : Word)
  | rdIn (j : Nat)
  | rdOut (j : Nat)
  | wait
  | layout (m : Word)
  | pclass (p : Word)
  | dpos (k : Word)
  | encode (m : Word)
  | syndrome (n : Word)
  | correct (n s : Word) (o : Bool)
  | decode (n : Word)
  | clear
deriving DecidableEq, Repr

end Sys2Proof
end

