-- ==== Sys2Proof/WellFormed.lean ====
section
/-! DEFINITION. Which terms of the syntax the spec gives a meaning. -/

namespace Sys2Proof

/-- A command has no field (30_encoding.md R100, R102), so there is nothing in one that could be ill formed. -/
def Instr.wellFormed : Instr → Bool
  | .layout => true
  | .pclass => true
  | .dpos => true
  | .encode => true
  | .syndrome => true
  | .correct => true
  | .decode => true

/-- The offset is word aligned: `addr[1:0] = 0` (20_memory.md R74). -/
def aligned (a : Offset) : Bool := a.toNat % 4 = 0

/-- The port values of one cycle have a defined meaning: while rst is 1 every transaction is ignored
(70_reset_and_hazards.md R280); otherwise at most one strobe is high (20_memory.md R70) and an access is aligned (R74). -/
def PortIn.wellFormed (p : PortIn) : Bool :=
  p.rst || (!(p.we && p.re) && (!(p.we || p.re) || aligned p.addr))

/-- Every port cycle is well formed; a poll reads STATUS at its own, aligned offset. -/
def HostStep.wellFormed : HostStep → Bool
  | .drive p => p.wellFormed
  | .poll => true

/-- The side conditions of the host notation: a window index has 0 <= j < 16384 (20_memory.md R76, R78), and CORRECT requires
s < 2^31 (30_encoding.md R112). -/
def Stmt.wellFormed : Stmt → Bool
  | .wrIn j _ => j < 16384
  | .rdIn j => j < 16384
  | .rdOut j => j < 16384
  | .correct _ s _ => s.toNat < 2 ^ 31
  | .wrReg _ _ => true
  | .rdReg _ => true
  | .wait => true
  | .layout _ => true
  | .pclass _ => true
  | .dpos _ => true
  | .encode _ => true
  | .syndrome _ => true
  | .decode _ => true
  | .clear => true

end Sys2Proof
end

