-- ==== Sys2Proof/Decode.lean ====
section
/-! DEFINITION. Decoding a command word (30_encoding.md R100-R107), total on every 32-bit value and rejecting by name; the
encoder after it; and the transactions a host statement stands for (R110-R112). -/

namespace Sys2Proof

/-- Why a CMD value is ILLEGAL (30_encoding.md R104, R105). -/
inductive IllegalReason where
  | reservedBits   -- CMD[31:4] is not 0, whatever OP holds (R105)
  | reservedOp     -- OP is 0x0 or 0x8 to 0xF (R104)
deriving DecidableEq, Repr

/-- What a CMD value decodes to: one of the seven commands, or ILLEGAL (30_encoding.md R106). -/
inductive Decoded where
  | command (i : Instr)
  | illegal (why : IllegalReason)
deriving DecidableEq, Repr

/-- The OP field, CMD[3:0] (30_encoding.md R100). -/
def opField (w : Word) : Nat := w.toNat % 16

/-- The RSVD field, CMD[31:4] (30_encoding.md R100). -/
def rsvdField (w : Word) : Nat := w.toNat / 16

/-- The opcode map (30_encoding.md R103): OP selects a command for 0x1 to 0x7. -/
def opcodeMap : Nat → Option Instr
  | 1 => some .layout
  | 2 => some .pclass
  | 3 => some .dpos
  | 4 => some .encode
  | 5 => some .syndrome
  | 6 => some .correct
  | 7 => some .decode
  | _ => none

/-- decodeCmd of 30_encoding.md R106. -/
def decodeCmd (w : Word) : Decoded :=
  if rsvdField w ≠ 0 then .illegal .reservedBits
  else match opcodeMap (opField w) with
    | some i => .command i
    | none => .illegal .reservedOp

/-- The CMD value of a command (30_encoding.md R103, the table's column "CMD value"). -/
def encode : Instr → Word
  | .layout => 0x00000001
  | .pclass => 0x00000002
  | .dpos => 0x00000003
  | .encode => 0x00000004
  | .syndrome => 0x00000005
  | .correct => 0x00000006
  | .decode => 0x00000007

/-- The command the decoder reads from an opcode-table row's bits. A command is always one 32-bit word (30_encoding.md R100), so
a row of more bits than that is none. -/
def decodeTableWord (nbits w : Nat) : Option Instr :=
  let v := w % 2 ^ nbits
  if v < 2 ^ 32 then
    match decodeCmd (BitVec.ofNat 32 v) with
    | .command i => some i
    | .illegal _ => none
  else none

/-- The offset of a register (10_state.md, table of section 2). -/
def csrOffset : Csr → Offset
  | .cmd => 0x00000
  | .status => 0x00004
  | .arg => 0x00008
  | .arg2 => 0x0000C
  | .res0 => 0x00010
  | .res1 => 0x00014
  | .res2 => 0x00018
  | .outLen => 0x0001C
  | .cfgMmax => 0x00020
  | .cfgNmax => 0x00024

/-- A cycle with no transaction. -/
def idleCycle : PortIn := { rst := false, we := false, re := false, addr := 0, wdata := 0 }

/-- A cycle with rst high (70_reset_and_hazards.md R280). -/
def resetCycle : PortIn := { rst := true, we := false, re := false, addr := 0, wdata := 0 }

/-- MemWrite(a, 4, v), one write transaction (20_memory.md R71). -/
def writeCycle (a : Offset) (v : Word) : PortIn := { rst := false, we := true, re := false, addr := a, wdata := v }

/-- MemRead(a, 4), one read transaction (20_memory.md R71). -/
def readCycle (a : Offset) : PortIn := { rst := false, we := false, re := true, addr := a, wdata := 0 }

/-- WR to a register (30_encoding.md R110). -/
def wr (r : Csr) (v : Word) : HostStep := .drive (writeCycle (csrOffset r) v)

/-- The ARG2 value of `CORRECT n, s, o`: (o << 31) OR s (30_encoding.md R112). -/
def arg2Word (s : Word) (o : Bool) : Word := ((if o then 1 else 0 : Word) <<< 31) ||| s

/-- The host steps a statement stands for (30_encoding.md R110-R112), in consecutive cycles; `spaceOut` puts other cycles between
them (DESIGN CHOICE, log entry 13). -/
def encodeStmt : Stmt → List HostStep
  | .wrReg r v => [wr r v]
  | .rdReg r => [.drive (readCycle (csrOffset r))]
  | .wrIn j v => [.drive (writeCycle (BitVec.ofNat 18 (0x10000 + 4 * j)) v)]
  | .rdIn j => [.drive (readCycle (BitVec.ofNat 18 (0x10000 + 4 * j)))]
  | .rdOut j => [.drive (readCycle (BitVec.ofNat 18 (0x20000 + 4 * j)))]
  | .wait => [.poll]
  | .layout m => [wr .arg m, wr .cmd 0x1]
  | .pclass p => [wr .arg p, wr .cmd 0x2]
  | .dpos k => [wr .arg k, wr .cmd 0x3]
  | .encode m => [wr .arg m, wr .cmd 0x4]
  | .syndrome n => [wr .arg n, wr .cmd 0x5]
  | .correct n s o => [wr .arg n, wr .arg2 (arg2Word s o), wr .cmd 0x6]
  | .decode n => [wr .arg n, wr .cmd 0x7]
  | .clear => [wr .status 0x6]

/-- Host steps with idle cycles put between them: the k-th number is how many come before the k-th step, none where the list has
ended. -/
def spaceOut : List Nat → List HostStep → List HostStep
  | _, [] => []
  | [], step :: steps => step :: steps
  | gap :: gaps, step :: steps => List.replicate gap (.drive idleCycle) ++ step :: spaceOut gaps steps

/-- A host program: its statements' steps in order, spaced out. DESIGN CHOICE (log entry 13): the spec leaves the completion free
between any two transactions (20_memory.md R84), and the model has the cycles between them be the host's to choose. -/
def encodeProgram (gaps : List Nat) (program : List Stmt) : List HostStep :=
  spaceOut gaps (program.flatMap encodeStmt)

end Sys2Proof
end

