-- ==== Sys2Proof/Config.lean ====
section
/-! DEFINITION. What an instance of the block fixes (00_scope.md R6) and the free values (R8, 93_implementation_defined.md
U4, U5, U8, U9), which have no body: nothing can be proved about which value they are. -/

namespace Sys2Proof

/-- The parameter of an instance of the block. `dataMax` is DATA_MAX, the largest data length it accepts, with its bound
0 <= DATA_MAX <= 524268 (00_scope.md R6) in the type. -/
structure Config where
  dataMax : Fin 524269
deriving DecidableEq, Repr

/-- The reference instance, DATA_MAX = 1013 (00_scope.md R6). DESIGN CHOICE for `State.reset` (log entry 1): R6 leaves the
parameter open, and a statement about every state holds for every value of it. -/
def Config.reference : Config := ⟨1013⟩

/-- The value of the `k`-th draw where the spec says a read returns an unspecified value (93_implementation_defined.md U4,
U5, U9; log entry 2). A free value. -/
opaque Config.drawnWord : Nat → Word

/-- The `k`-th draw of a command's LATENCY less 1 (00_scope.md R8: LATENCY >= 1 is the only fact fixed; log entry 3). A free
value. -/
opaque Config.drawnLatency : Nat → Nat

end Sys2Proof
end

