-- ==== Sys2Proof/Machine/Arith.lean ====
section
/-! DEFINITION. The layout arithmetic every command uses (40_layout.md R130-R139), the parameters derived from DATA_MAX
(00_scope.md R7), and the XOR folds over the positions of a bit sequence (00_scope.md R13). -/

namespace Sys2Proof.Machine

/-- isPow2 (40_layout.md R130): the parity positions are the positions that are powers of two. -/
def isPow2 (p : Nat) : Bool := 1 ≤ p && p &&& (p - 1) = 0

/-- The search of 40_layout.md R131, r going up from the given value; the first argument bounds the number of trials. -/
def rcountFrom : Nat → Nat → Nat → Nat
  | 0, _, r => r
  | fuel + 1, m, r => if 2 ^ r < m + r + 1 then rcountFrom fuel m (r + 1) else r

/-- rcount (40_layout.md R131): the smallest r with 2^r >= m + r + 1. The search ends by r = m + 1. -/
def rcount (m : Nat) : Nat := rcountFrom (m + 1) m 0

/-- The layout of a data length (40_layout.md R132): m data bits, r parity bits, Hamming portion h, codeword length n. -/
structure Layout where
  m : Nat
  r : Nat
  h : Nat
  n : Nat
deriving DecidableEq, Repr

/-- layout(m) (40_layout.md R132). -/
def layout (m : Nat) : Layout :=
  { m := m, r := rcount m, h := m + rcount m, n := m + rcount m + 1 }

/-- wellFormed(n) (40_layout.md R134): n is the length of some codeword. -/
def wellFormedLength (n : Nat) : Bool := 1 ≤ n && !isPow2 (n - 1)

/-- The parity-bit count of a codeword whose Hamming portion has length h (40_layout.md R135). -/
def parityCount (h : Nat) : Nat := if h = 0 then 0 else Nat.log2 h + 1

/-- layoutOf(n), for a well-formed n (40_layout.md R135). -/
def layoutOf (n : Nat) : Layout :=
  { m := n - 1 - parityCount (n - 1), r := parityCount (n - 1), h := n - 1, n := n }

/-- rank(p) of a data position (40_layout.md R136). -/
def rank (p : Nat) : Nat := p - (Nat.log2 p + 1)

/-- dpos(k), the position of the data bit of rank k (40_layout.md R137). -/
def dpos (k : Nat) : Nat := k + rcount k

/-- DATA_MAX (00_scope.md R6). -/
def dataMax (cfg : Config) : Nat := cfg.dataMax.val

/-- R_MAX (00_scope.md R7). -/
def rMax (cfg : Config) : Nat := rcount (dataMax cfg)

/-- H_MAX (00_scope.md R7). -/
def hMax (cfg : Config) : Nat := dataMax cfg + rMax cfg

/-- N_MAX (00_scope.md R7). -/
def nMax (cfg : Config) : Nat := hMax cfg + 1

/-- W, the number of 32-bit words in each bit buffer (00_scope.md R7). -/
def bufferWords (cfg : Config) : Nat := (nMax cfg + 31) / 32

/-- The element of index i of a bit sequence. -/
def bitAt (c : List Bool) (i : Nat) : Bool := c.getD i false

/-- The Hamming positions 1..h (00_scope.md R12). -/
def positions (h : Nat) : List Nat := List.range' 1 h

/-- XOR of the elements whose index is selected, the first element having the index given (00_scope.md R13). -/
def xorFrom (sel : Nat → Bool) : Nat → List Bool → Bool
  | _, [] => false
  | i, b :: c => (sel i && b) ^^ xorFrom sel (i + 1) c

/-- XOR over the selected indices of a bit sequence, 0 when none is selected (00_scope.md R13). -/
def xorWhere (sel : Nat → Bool) (c : List Bool) : Bool := xorFrom sel 0 c

/-- The positions that parity check i covers: those with bit i set (40_layout.md R139). Index 0 has no bit set. -/
def covers (i p : Nat) : Bool := p.testBit i

end Sys2Proof.Machine
end

