-- ==== Sys2Proof/Machine/State.lean ====
section
/-! DEFINITION. The state of the block (10_state.md R30-R57), the reasons a step can stop, and the state after reset
(70_reset_and_hazards.md R281). -/

namespace Sys2Proof.Machine

/-- The result codes of 60_exceptions.md R251. Codes 8-15 are never produced (93_implementation_defined.md U16), so they have no
constructor. -/
inductive Result where
  | none
  | ok
  | corrected
  | globalFix
  | uncorrectable
  | malformed
  | range
  | illegalOp
deriving DecidableEq, Repr

/-- The bit buffers: (byte offset, byte) pairs, addresses strictly rising, no entry equal to what an unlisted offset reads as.
Byte t of the word at offset a is the cell at a + t (20_memory.md R79; log entry 7). -/
abbrev Memory := List Host.Cell

/-- Everything the spec gives the block (10_state.md R30), and the model's own `host` and `draws`. -/
structure State where
  /-- DATA_MAX, which CFG_MMAX and CFG_NMAX show (10_state.md R45, R46). No step changes it. -/
  cfg      : Config
  /-- CMD (10_state.md R32). -/
  cmd      : Word
  /-- ARG (10_state.md R39). -/
  arg      : Word
  /-- ARG2 (10_state.md R40). -/
  arg2     : Word
  /-- RES0 (10_state.md R41). -/
  res0     : Word
  /-- RES1 (10_state.md R42). -/
  res1     : Word
  /-- RES2 (10_state.md R43). -/
  res2     : Word
  /-- OUTLEN (10_state.md R44). -/
  outLen   : Word
  /-- STATUS.DONE (10_state.md R35). -/
  done     : Bool
  /-- STATUS.OVR (10_state.md R36). -/
  ovr      : Bool
  /-- STATUS.RESULT (10_state.md R37). -/
  result   : Result
  /-- The command in flight (10_state.md R55): `some k` means that it completes after k more cycles have passed, in the cycle
  after those, so LATENCY is k + 1 at issue (00_scope.md R8). STATUS.BUSY is 1 exactly when this is `some` (R34; log entry 8). -/
  inflight : Option Nat
  /-- The IN and OUT bit buffers (10_state.md R50, R51). `inWritten[j]` (R56) is that IN word j's cells are listed. -/
  mem      : Memory
  /-- outValid (10_state.md R56). -/
  outValid : Bool
  /-- The rdata port: the read data in a cycle with a read, `none` in any other (20_memory.md R70; log entry 9). -/
  rdata    : Option Word
  /-- The model's own: what the host drives in the coming cycles; when it is empty the ports idle (log entry 4). -/
  host     : List HostStep
  /-- The model's own: how many free values have been drawn (log entries 2, 3). -/
  draws    : Nat
deriving DecidableEq, Repr

/-- Why the machine stops. -/
inductive Fault where
  /-- A command reads an IN bit in a word the host has not written since reset (UNWRITTEN_OPERAND, 10_state.md R56). Raised by
  ENCODE, SYNDROME, CORRECT and DECODE at completion. Safe: a real block computes on unspecified bits there (log entry 6). -/
  | unwrittenOperand
deriving DecidableEq, Repr

/-- Why a form has no meaning. -/
inductive Refusal where
  /-- An instruction the model gives no meaning yet. Raised by no arm of `exec`. Safe. -/
  | notModelled (mnemonic : String)
  /-- An access with addr[1:0] not 0 (20_memory.md R74, 93_implementation_defined.md U6). Raised by the bus. Safe: the spec
  refuses it (log entry 10). -/
  | misaligned
  /-- A cycle with both we and re high (20_memory.md R70, 93_implementation_defined.md U7). Raised by the bus. Safe: the spec
  refuses it (log entry 10). -/
  | bothStrobes
deriving DecidableEq, Repr

/-- The state after reset (70_reset_and_hazards.md R281), for the reference instance. -/
def State.reset : State where
  cfg := Config.reference
  cmd := 0
  arg := 0
  arg2 := 0
  res0 := 0
  res1 := 0
  res2 := 0
  outLen := 0
  done := false
  ovr := false
  result := .none
  inflight := none
  mem := []
  outValid := false
  rdata := none
  host := []
  draws := 0

end Sys2Proof.Machine
end

