-- ==== Sys2Proof/Machine/Ops.lean ====
section
/-! DEFINITION. The shared operations: the bit-buffer memory (20_memory.md R76-R79), the words of its two windows, the
issue step (60_exceptions.md R261), and the completion step's write of a result (R262), with the failing completions
`raise` stands for (00_scope.md R15, 60_exceptions.md R256). -/

namespace Sys2Proof.Machine

/-- The first offset of the IN window (20_memory.md R72). -/
def inBase : Nat := 0x10000

/-- The first offset of the OUT window (20_memory.md R72). -/
def outBase : Nat := 0x20000

/-- What an unlisted offset reads as. An IN byte has no value until the host writes its word (10_state.md R50). An OUT byte
is 0: every bit of OUT beyond the output is (R52), and before the first completion no read of OUT reaches memory (R56; log entry 11). -/
def Memory.unlisted (a : Nat) : Option Byte :=
  if outBase ≤ a then some 0 else none

/-- The canonical form: offsets strictly rising, and no entry that an unlisted offset reads as. -/
abbrev Memory.wf (m : Memory) : Prop :=
  m.Pairwise (fun x y => x.1 < y.1) ∧ ∀ c ∈ m, Memory.unlisted c.1 ≠ some c.2

/-- The byte listed at an offset. -/
def Memory.lookup : Memory → Nat → Option Byte
  | [], _ => none
  | (k, b) :: m, a => if k = a then some b else Memory.lookup m a

/-- The byte at an offset, `none` where nothing gives it a value. -/
def Memory.readByte (m : Memory) (a : Nat) : Option Byte :=
  match Memory.lookup m a with
  | some b => some b
  | none => Memory.unlisted a

/-- List a byte at an offset, in its place. -/
def Memory.put : Memory → Nat → Byte → Memory
  | [], a, b => [(a, b)]
  | (k, c) :: m, a, b =>
    if a < k then (a, b) :: (k, c) :: m
    else if a = k then (a, b) :: m
    else (k, c) :: Memory.put m a b

/-- Unlist an offset. -/
def Memory.remove (m : Memory) (a : Nat) : Memory := m.filter (fun c => c.1 ≠ a)

/-- Write a byte, keeping the canonical form. -/
def Memory.writeByte (m : Memory) (a : Nat) (b : Byte) : Memory :=
  if Memory.unlisted a = some b then Memory.remove m a else Memory.put m a b

/-- Byte t of a word: bits 8t+7 to 8t (20_memory.md R79). -/
def wordByte (v : Word) (t : Nat) : Byte := v.extractLsb' (8 * t) 8

/-- The word whose bytes 3 to 0 are given. -/
def wordOf (b3 b2 b1 b0 : Byte) : Word := b3 ++ b2 ++ b1 ++ b0

/-- The word at an offset, `none` where one of its bytes has no value. -/
def Memory.readWord (m : Memory) (a : Nat) : Option Word :=
  match Memory.readByte m (a + 3), Memory.readByte m (a + 2), Memory.readByte m (a + 1), Memory.readByte m a with
  | some b3, some b2, some b1, some b0 => some (wordOf b3 b2 b1 b0)
  | _, _, _, _ => none

/-- Write a word at an offset, as one access (20_memory.md R73). -/
def Memory.writeWord (m : Memory) (a : Nat) (v : Word) : Memory :=
  (((m.writeByte a (wordByte v 0)).writeByte (a + 1) (wordByte v 1)).writeByte (a + 2) (wordByte v 2)).writeByte (a + 3) (wordByte v 3)

/-- Write words k - 1 down to 0 of the OUT window. -/
def Memory.writeOut (f : Nat → Word) : Nat → Memory → Memory
  | 0, m => m
  | k + 1, m => Memory.writeOut f k (m.writeWord (outBase + 4 * k) (f k))

/-- The word whose bit b is `f b` (20_memory.md R76). -/
def wordFrom (f : Nat → Bool) : Word := BitVec.ofFnLE (fun b : Fin 32 => f b.val)

/-- The bits of buffer word j that exist: bit b is there when 32*j + b < N_MAX (20_memory.md R76, R78). -/
def liveMask (cfg : Config) (j : Nat) : Word := wordFrom (fun b => decide (32 * j + b < nMax cfg))

/-- IN word j, `none` while the host has not written it since reset (10_state.md R50, R56). -/
def State.inWord (s : State) (j : Nat) : Option Word := s.mem.readWord (inBase + 4 * j)

/-- inWritten[j] (10_state.md R56). -/
def State.inWritten (s : State) (j : Nat) : Bool := (s.inWord j).isSome

/-- OUT word j, as memory holds it (20_memory.md R78). -/
def State.outWord (s : State) (j : Nat) : Word := (s.mem.readWord (outBase + 4 * j)).getD 0

/-- IN[i]: bit i mod 32 of word floor(i/32) (20_memory.md R76, R77); false in a word that holds no value, which no command
reads (10_state.md R56). -/
def State.inBit (s : State) (i : Nat) : Bool := ((s.inWord (i / 32)).getD 0).getLsbD (i % 32)

/-- OUT[i] (20_memory.md R78). -/
def State.outBit (s : State) (i : Nat) : Bool := (s.outWord (i / 32)).getLsbD (i % 32)

/-- STATUS.BUSY (10_state.md R34). -/
def State.busy (s : State) : Bool := s.inflight.isSome

/-- A snapshot of the operands, (CMD, ARG, ARG2, IN[0..N_MAX-1]) (10_state.md R55), IN as its words. -/
structure Snapshot where
  cmd  : Word
  arg  : Word
  arg2 : Word
  inp  : List (Option Word)
deriving DecidableEq, Repr

/-- The operands as they stand. -/
def State.operands (s : State) : Snapshot :=
  { cmd := s.cmd, arg := s.arg, arg2 := s.arg2, inp := (List.range (bufferWords s.cfg)).map s.inWord }

/-- The in-flight snapshot of 10_state.md R55: while a command is in flight the host cannot change its operands
(20_memory.md R80), so the snapshot taken at issue is the live operands. -/
def State.snapshot (s : State) : Option Snapshot := if s.busy then some s.operands else none

/-- What a command's rule gives at completion: RESULT, RES0-RES2 and the output sequence; a word it does not name is 0, and
OUTLEN is the length of the output (40_layout.md, template of section 2). -/
structure Completion where
  result : Result
  res0   : Nat := 0
  res1   : Nat := 0
  res2   : Nat := 0
  out    : List Bool := []
deriving DecidableEq, Repr

/-- Word j of OUT after a completion: the output sequence, then zeros up to N_MAX (10_state.md R52). -/
def outputWord (cfg : Config) (out : List Bool) (j : Nat) : Word :=
  wordFrom (fun b => decide (32 * j + b < nMax cfg) && bitAt out (32 * j + b))

/-- The completion step's writes (60_exceptions.md R262): results, all of OUT, RESULT, and the handshake, at once. Everything
else is unchanged. -/
def State.complete (s : State) (c : Completion) : State :=
  { s with
    res0 := BitVec.ofNat 32 c.res0
    res1 := BitVec.ofNat 32 c.res1
    res2 := BitVec.ofNat 32 c.res2
    outLen := BitVec.ofNat 32 c.out.length
    mem := s.mem.writeOut (outputWord s.cfg c.out) (bufferWords s.cfg)
    result := c.result
    inflight := none
    done := true
    outValid := true }

/-- `raise Code` of a command rule (00_scope.md R15): a failing completion, results 0 and OUT all zero (60_exceptions.md R256). -/
def State.raise (s : State) (code : Result) : State := s.complete { result := code }

/-- The issue step (60_exceptions.md R261), with the command's LATENCY drawn (00_scope.md R8). -/
def State.issue (s : State) (v : Word) : State :=
  { s with
    cmd := v
    inflight := some (Config.drawnLatency s.draws)
    draws := s.draws + 1
    done := false
    result := .none }

/-- The reset edge (70_reset_and_hazards.md R280): the reset state of the same instance. What the host will drive and the count
of draws are no state of the block, so they stay. -/
def State.afterReset (s : State) : State :=
  { State.reset with cfg := s.cfg, host := s.host, draws := s.draws }

/-- Put a value the spec leaves unspecified on rdata, on the bits of the mask; the others read 0 (log entry 2). -/
def State.drawRead (s : State) (mask : Word) : State :=
  { s with rdata := some (Config.drawnWord s.draws &&& mask), draws := s.draws + 1 }

end Sys2Proof.Machine
end

