-- ==== Sys2Proof/Machine/Flags.lean ====
section
/-! DEFINITION. The STATUS register (10_state.md R33-R38): the code of each result, the word a read returns, and what a write
and a dropped write do to its flags. -/

namespace Sys2Proof.Machine

/-- The 4-bit code of a result (60_exceptions.md R251). -/
def resultCode : Result → BitVec 4
  | .none => 0
  | .ok => 1
  | .corrected => 2
  | .globalFix => 3
  | .uncorrectable => 4
  | .malformed => 5
  | .range => 6
  | .illegalOp => 7

/-- The STATUS word: BUSY in bit 0, DONE in bit 1, OVR in bit 2, RESULT in bits 7:4, bits 3 and 31:8 zero (10_state.md R33). -/
def State.status (s : State) : Word :=
  (0 : BitVec 24) ++ resultCode s.result ++ (0 : BitVec 1) ++ BitVec.ofBool s.ovr ++ BitVec.ofBool s.done ++ BitVec.ofBool s.busy

/-- A host write to STATUS: writing 1 to bit 1 clears DONE, writing 1 to bit 2 clears OVR, nothing else (10_state.md R33). -/
def State.writeStatus (s : State) (v : Word) : State :=
  { s with done := s.done && !v.getLsbD 1, ovr := s.ovr && !v.getLsbD 2 }

/-- A write dropped while BUSY = 1: OVR is set and no other state changes (20_memory.md R80). -/
def State.dropWrite (s : State) : State := { s with ovr := true }

end Sys2Proof.Machine
end

