-- ==== Sys2Proof/Machine/Bus.lean ====
section
/-! DEFINITION. The slave port (20_memory.md R70-R82): which register or window word an offset names, a read, a write, and the
host's part of one clock cycle. -/

namespace Sys2Proof.Machine

/-- What an aligned offset names (20_memory.md R72). -/
inductive Target where
  | csr (r : Csr)
  | inWord (j : Nat)
  | outWord (j : Nat)
  | reserved
deriving DecidableEq, Repr

/-- The register at word n of the register block (10_state.md, table of section 2). -/
def csrAt : Nat → Csr
  | 0 => .cmd
  | 1 => .status
  | 2 => .arg
  | 3 => .arg2
  | 4 => .res0
  | 5 => .res1
  | 6 => .res2
  | 7 => .outLen
  | 8 => .cfgMmax
  | _ => .cfgNmax

/-- The address map, of an aligned byte offset (20_memory.md R72, R75, R76, R78). -/
def targetAt (n : Nat) : Target :=
  if n < 0x28 then .csr (csrAt (n / 4))
  else if n < inBase then .reserved
  else if n < outBase then .inWord ((n - inBase) / 4)
  else if n < 0x30000 then .outWord ((n - outBase) / 4)
  else .reserved

/-- What an access at an offset names. -/
def target (a : Offset) : Target := targetAt a.toNat

/-- A read that returns a value the spec gives. -/
def State.giveRead (s : State) (v : Word) : State := { s with rdata := some v }

/-- A read of a result register: its value, or a draw while BUSY = 1 (20_memory.md R81). -/
def State.readResult (s : State) (v : Word) : State :=
  if s.busy then s.drawRead (BitVec.allOnes 32) else s.giveRead v

/-- A read of a register (10_state.md R32-R46). -/
def State.readCsr (s : State) : Csr → State
  | .cmd => s.giveRead s.cmd
  | .status => s.giveRead s.status
  | .arg => s.giveRead s.arg
  | .arg2 => s.giveRead s.arg2
  | .res0 => s.readResult s.res0
  | .res1 => s.readResult s.res1
  | .res2 => s.readResult s.res2
  | .outLen => s.readResult s.outLen
  | .cfgMmax => s.giveRead (BitVec.ofNat 32 (dataMax s.cfg))
  | .cfgNmax => s.giveRead (BitVec.ofNat 32 (nMax s.cfg))

/-- A read of IN word j (20_memory.md R76): its value, the bits at N_MAX and above 0; in a word not written since reset the
others are drawn (log entry 5). -/
def State.readIn (s : State) (j : Nat) : State :=
  if bufferWords s.cfg ≤ j then s.giveRead 0
  else match s.inWord j with
    | some v => s.giveRead (v &&& liveMask s.cfg j)
    | none => s.drawRead (liveMask s.cfg j)

/-- A read of OUT word j (20_memory.md R78): drawn before the first completion (10_state.md R56) and while BUSY = 1
(20_memory.md R81), but for the bits at N_MAX and above, which read 0. -/
def State.readOut (s : State) (j : Nat) : State :=
  if bufferWords s.cfg ≤ j then s.giveRead 0
  else if s.busy || !s.outValid then s.drawRead (liveMask s.cfg j)
  else s.giveRead (s.outWord j &&& liveMask s.cfg j)

/-- MemRead(a, 4) (20_memory.md R71). No read changes any state of the block (R82). -/
def State.busRead (s : State) (a : Offset) : State :=
  match target a with
  | .csr r => s.readCsr r
  | .inWord j => s.readIn j
  | .outWord j => s.readOut j
  | .reserved => s.giveRead 0

/-- A write the block accepts only while BUSY = 0, else drops (20_memory.md R80). -/
def State.writeIfIdle (s : State) (accepted : State) : State :=
  if s.busy then s.dropWrite else accepted

/-- A write to a register (10_state.md R32-R46): a write to CMD issues; the read-only registers ignore it. -/
def State.writeCsr (s : State) (v : Word) : Csr → State
  | .cmd => s.writeIfIdle (s.issue v)
  | .status => s.writeStatus v
  | .arg => s.writeIfIdle { s with arg := v }
  | .arg2 => s.writeIfIdle { s with arg2 := v }
  | .res0 => s
  | .res1 => s
  | .res2 => s
  | .outLen => s
  | .cfgMmax => s
  | .cfgNmax => s

/-- IN word j holding v, the bits at N_MAX and above left out (20_memory.md R76). -/
def State.storeIn (s : State) (j : Nat) (v : Word) : State :=
  { s with mem := s.mem.writeWord (inBase + 4 * j) (v &&& liveMask s.cfg j) }

/-- A write to IN word j; a word at W or above ignores it (20_memory.md R76, R80). -/
def State.writeIn (s : State) (j : Nat) (v : Word) : State :=
  if bufferWords s.cfg ≤ j then s else s.writeIfIdle (s.storeIn j v)

/-- MemWrite(a, 4, v) (20_memory.md R71). The OUT window and the reserved offsets ignore it (R75, R78). -/
def State.busWrite (s : State) (a : Offset) (v : Word) : State :=
  match target a with
  | .csr r => s.writeCsr v r
  | .inWord j => s.writeIn j v
  | .outWord _ => s
  | .reserved => s

/-- The transaction of one cycle's port values, rst being 0 (20_memory.md R70, R71, R74): rdata is valid in a read's cycle only. -/
def State.access (s : State) (p : PortIn) : Host.Outcome State Fault Refusal :=
  if p.we && p.re then .refused .bothStrobes
  else if (p.we || p.re) && !aligned p.addr then .refused .misaligned
  else if p.re then .next (s.busRead p.addr)
  else if p.we then .next ({ s with rdata := none }.busWrite p.addr p.wdata)
  else .next { s with rdata := none }

/-- A poll reads STATUS and goes on polling while the value read has BUSY = 1 (30_encoding.md R111). -/
def State.pollStatus (s : State) (rest : List HostStep) : State :=
  { s.busRead (csrOffset .status) with host := if s.busy then s.host else rest }

/-- The host's part of a cycle in which rst is 0: the next entry of the queue, or nothing when it is empty. -/
def State.hostPart (s : State) : Host.Outcome State Fault Refusal :=
  match s.host with
  | [] => .next { s with rdata := none }
  | .poll :: rest => .next (s.pollStatus rest)
  | .drive p :: rest => { s with host := rest }.access p

/-- The port values of a cycle in which rst is 1, and what the host does after it. -/
def resetDriven : List HostStep → Option (PortIn × List HostStep)
  | .drive p :: rest => if p.rst then some (p, rest) else none
  | .poll :: _ => none
  | [] => none

/-- A cycle in which rst is 1 (70_reset_and_hazards.md R280, R282): the reset state; a transaction has no effect, and a read
returns an unspecified value. -/
def State.resetPart (s : State) (p : PortIn) (rest : List HostStep) : State :=
  let t := { s with host := rest }.afterReset
  if p.re then t.drawRead (BitVec.allOnes 32) else t

end Sys2Proof.Machine
end

