-- ==== Sys2Proof/Machine/Operands.lean ====
section
/-! DEFINITION. The operands of the commands (30_encoding.md R101, R102; 20_memory.md R77) and the checks made on them, in the
order of 60_exceptions.md R258: RANGE, then MALFORMED, then the unwritten-operand check. -/

namespace Sys2Proof.Machine

/-- ARG, the whole register read as an unsigned number (30_encoding.md R101). -/
def State.argNat (s : State) : Nat := s.arg.toNat

/-- s = ARG2[30:0] (30_encoding.md R102). -/
def State.argSyndrome (s : State) : Nat := s.arg2.toNat % 2 ^ 31

/-- o = ARG2[31] (30_encoding.md R102). -/
def State.argOverall (s : State) : Bool := s.arg2.getLsbD 31

/-- The number of IN words that hold a bit below n (70_reset_and_hazards.md R284). -/
def wordsFor (n : Nat) : Nat := (n + 31) / 32

/-- Every IN word that holds a bit below n has been written since reset (10_state.md R56). -/
def State.operandWritten (s : State) (n : Nat) : Bool := (List.range (wordsFor n)).all s.inWritten

/-- The bit sequence IN[0..n-1] (20_memory.md R77); bits at n and above are ignored (10_state.md R50). -/
def State.inBits (s : State) (n : Nat) : List Bool := (List.range n).map s.inBit

/-- What the checks of a command on its operands answer: a code it fails with, the model fault, or the operand. -/
inductive OperandCheck (α : Type) where
  | fails (code : Result)
  | unwritten
  | ready (x : α)
deriving DecidableEq, Repr

/-- The data operand of ENCODE (41_encode.md R161): RANGE when m > DATA_MAX; with m = 0 no word is read. -/
def State.dataOperand (s : State) : OperandCheck (List Bool) :=
  if dataMax s.cfg < s.argNat then .fails .range
  else if !s.operandWritten s.argNat then .unwritten
  else .ready (s.inBits s.argNat)

/-- The codeword operand of SYNDROME, CORRECT and DECODE: RANGE when n > N_MAX (60_exceptions.md R254), MALFORMED when n is no
codeword length (R255), then the unwritten-operand check (R258). -/
def State.codewordOperand (s : State) : OperandCheck (List Bool) :=
  if nMax s.cfg < s.argNat then .fails .range
  else if !wellFormedLength s.argNat then .fails .malformed
  else if !s.operandWritten s.argNat then .unwritten
  else .ready (s.inBits s.argNat)

/-- The outcome of a command whose operand check has been made: a failing completion, the model fault (10_state.md R56), or the
completion its rule gives for the operand. -/
def State.finish (s : State) (operand : OperandCheck (List Bool)) (rule : List Bool → Completion) :
    Host.Outcome State Fault Refusal :=
  match operand with
  | .fails code => .next (s.raise code)
  | .unwritten => .fault .unwrittenOperand
  | .ready x => .next (s.complete (rule x))

end Sys2Proof.Machine
end

