-- ==== Sys2Proof/Machine/Syndrome.lean ====
section
/-! DEFINITION. The syndrome computer and the overall check (42_syndrome.md R180-R183). -/

namespace Sys2Proof.Machine

/-- Parity check i of a codeword (42_syndrome.md R180), its own position included; index 0 is in no check. -/
def chk (i : Nat) (c : List Bool) : Bool := xorWhere (covers i) c

/-- The integer with bit i set when check i fails, for i below r (42_syndrome.md R181). -/
def assembleSyndrome (c : List Bool) : Nat → Nat
  | 0 => 0
  | i + 1 => assembleSyndrome c i + (if chk i c then 2 ^ i else 0)

/-- synd(c) of a codeword of well-formed length (42_syndrome.md R181). -/
def synd (c : List Bool) : Nat := assembleSyndrome c (layoutOf c.length).r

/-- ovc(c) (42_syndrome.md R182): the XOR of every bit, the stored global bit included (90_conflicts.md C2). -/
def ovc (c : List Bool) : Bool := xorWhere (fun _ => true) c

/-- The three words of a codeword command (42_syndrome.md R183, 43_correct.md R202, 44_decode.md R221): RES0 = s, RES1 = o,
RES2 = m. -/
def checkReport (code : Result) (s : Nat) (o : Bool) (n : Nat) (out : List Bool) : Completion :=
  { result := code, res0 := s, res1 := o.toNat, res2 := (layoutOf n).m, out := out }

/-- SYNDROME (42_syndrome.md R183): OK whatever the syndrome and the overall check. -/
def execSyndrome (s : State) : Host.Outcome State Fault Refusal :=
  s.finish s.codewordOperand (fun c => checkReport .ok (synd c) (ovc c) c.length [])

end Sys2Proof.Machine
end

