-- ==== Sys2Proof/Machine/Corrector.lean ====
section
/-! DEFINITION. The single-bit error corrector (43_correct.md R200-R202). -/

namespace Sys2Proof.Machine

/-- The outcomes of the decision table (43_correct.md R200). -/
inductive Diagnosis where
  | noErr
  | globalErr
  | single (p : Nat)
  | uncorr
deriving DecidableEq, Repr

/-- classify(s, o, h) (43_correct.md R200). -/
def classify (s : Nat) (o : Bool) (h : Nat) : Diagnosis :=
  if s = 0 then (if o then .globalErr else .noErr)
  else if !o then .uncorr
  else if s ≤ h then .single s
  else .uncorr

/-- The sequence with the bit of one index flipped (43_correct.md R201). -/
def flipBit (c : List Bool) (p : Nat) : List Bool := c.set p (!bitAt c p)

/-- fix(c, k) (43_correct.md R201), with the code a success reports (R202); `none` for UNCORR, which gives no codeword. -/
def fix (c : List Bool) : Diagnosis → Option (Result × List Bool)
  | .noErr => some (.ok, c)
  | .globalErr => some (.globalFix, flipBit c 0)
  | .single p => some (.corrected, flipBit c p)
  | .uncorr => none

/-- The correction of a codeword c by a given (s, o) and what is reported of it: the codeword `post` makes of the fixed one
as the output, or UNCORRECTABLE with s, o, m and no output (43_correct.md R202, 44_decode.md R221, 60_exceptions.md R257). -/
def correction (post : List Bool → List Bool) (s : Nat) (o : Bool) (c : List Bool) : Completion :=
  match fix c (classify s o (layoutOf c.length).h) with
  | some (code, c') => checkReport code s o c.length (post c')
  | none => checkReport .uncorrectable s o c.length []

/-- CORRECT (43_correct.md R202): it applies the (s, o) the host supplies in ARG2. -/
def execCorrect (s : State) : Host.Outcome State Fault Refusal :=
  s.finish s.codewordOperand (fun c => correction (fun c' => c') s.argSyndrome s.argOverall c)

end Sys2Proof.Machine
end

