-- ==== Sys2Proof/Machine/Decoder.lean ====
section
/-! DEFINITION. The SECDED decoder (44_decode.md R220, R221). -/

namespace Sys2Proof.Machine

/-- extract(c, h) (44_decode.md R220): the bits of the data positions 1..h, in order. -/
def extract (c : List Bool) (h : Nat) : List Bool :=
  ((positions h).filter (fun p => !isPow2 p)).map (bitAt c)

/-- DECODE (44_decode.md R221): it computes s and o itself, corrects, and strips the parity bits. -/
def execDecode (s : State) : Host.Outcome State Fault Refusal :=
  s.finish s.codewordOperand (fun c => correction (fun c' => extract c' (layoutOf c.length).h) (synd c) (ovc c) c)

end Sys2Proof.Machine
end

