-- ==== Sys2Proof/Machine/LayoutCommands.lean ====
section
/-! DEFINITION. The three commands of the parity-layout calculator (40_layout.md R140-R142). None reads IN. -/

namespace Sys2Proof.Machine

/-- What LAYOUT and ENCODE report of a layout: RES0 = r, RES1 = n, RES2 = h (40_layout.md R140, 41_encode.md R161). -/
def layoutReport (l : Layout) (out : List Bool) : Completion :=
  { result := .ok, res0 := l.r, res1 := l.n, res2 := l.h, out := out }

/-- LAYOUT (40_layout.md R140). -/
def execLayout (s : State) : Host.Outcome State Fault Refusal :=
  if dataMax s.cfg < s.argNat then .next (s.raise .range)
  else .next (s.complete (layoutReport (layout s.argNat) []))

/-- The class of an index (40_layout.md R141): GLOBAL = 2 at index 0, PARITY = 1 with its check index, DATA = 0 with its rank. -/
def classReport (p : Nat) : Completion :=
  if p = 0 then { result := .ok, res0 := 2 }
  else if isPow2 p then { result := .ok, res0 := 1, res1 := Nat.log2 p }
  else { result := .ok, res0 := 0, res1 := rank p }

/-- PCLASS (40_layout.md R141). -/
def execPclass (s : State) : Host.Outcome State Fault Refusal :=
  if hMax s.cfg < s.argNat then .next (s.raise .range)
  else .next (s.complete (classReport s.argNat))

/-- DPOS (40_layout.md R142). -/
def execDpos (s : State) : Host.Outcome State Fault Refusal :=
  if s.argNat = 0 ∨ dataMax s.cfg < s.argNat then .next (s.raise .range)
  else .next (s.complete { result := .ok, res0 := dpos s.argNat })

end Sys2Proof.Machine
end

