-- ==== Sys2Proof/Machine/Encoder.lean ====
section
/-! DEFINITION. The SECDED encoder (41_encode.md R160, R161). -/

namespace Sys2Proof.Machine

/-- Steps 1 and 2 of enc (41_encode.md R160): the codeword with the data bits in the data positions and 0 elsewhere. -/
def placeData (d : List Bool) : List Bool :=
  (List.range ((layout d.length).n)).map
    (fun p => if p = 0 || isPow2 p then false else bitAt d (rank p - 1))

/-- Step 3 of enc for one check (41_encode.md R160): c[2^i] becomes the XOR of the other positions that check i covers. -/
def setParity (c : List Bool) (i : Nat) : List Bool :=
  c.set (2 ^ i) (xorWhere (fun p => p ≠ 2 ^ i && covers i p) c)

/-- Step 4 of enc (41_encode.md R160): c[0] becomes the XOR of positions 1..h. -/
def setGlobal (c : List Bool) : List Bool :=
  c.set 0 (xorWhere (fun p => p ≠ 0) c)

/-- enc(d) (41_encode.md R160). -/
def enc (d : List Bool) : List Bool :=
  setGlobal ((List.range (layout d.length).r).foldl setParity (placeData d))

/-- ENCODE (41_encode.md R161). -/
def execEncode (s : State) : Host.Outcome State Fault Refusal :=
  s.finish s.dataOperand (fun d => layoutReport (layout d.length) (enc d))

end Sys2Proof.Machine
end

