-- ==== Sys2Proof/Machine/Dispatch.lean ====
section
/-! DEFINITION. The one dispatch of a command to its meaning (30_encoding.md R103): the completion of that command on the
operands as they stand, which are those of its issue (10_state.md R55). -/

namespace Sys2Proof.Machine

def exec (i : Instr) (s : State) : Host.Outcome State Fault Refusal :=
  match i with
  | .layout => Sys2Proof.Machine.execLayout s
  | .pclass => Sys2Proof.Machine.execPclass s
  | .dpos => Sys2Proof.Machine.execDpos s
  | .encode => Sys2Proof.Machine.execEncode s
  | .syndrome => Sys2Proof.Machine.execSyndrome s
  | .correct => Sys2Proof.Machine.execCorrect s
  | .decode => Sys2Proof.Machine.execDecode s

end Sys2Proof.Machine
end

