-- ==== Sys2Proof/Machine/Cycle.lean ====
section
/-! DEFINITION. One clock cycle of the block (20_memory.md R71, 60_exceptions.md R262): the host's transaction, then, if a
command was in flight before it, that command's progress to its completion. -/

namespace Sys2Proof.Machine

/-- The completion step of the command in CMD (60_exceptions.md R262): a reserved value completes with ILLEGAL_OP and reads no
operand (R253). -/
def State.completionStep (s : State) : Host.Outcome State Fault Refusal :=
  match decodeCmd s.cmd with
  | .command i => exec i s
  | .illegal _ => .next (s.raise .illegalOp)

/-- The block's part of a cycle, for what was in flight when it began: a command issued in this cycle does not progress in it
(LATENCY >= 1, 00_scope.md R8). -/
def State.blockPart (s : State) : Option Nat → Host.Outcome State Fault Refusal
  | none => .next s
  | some 0 => s.completionStep
  | some (k + 1) => .next { s with inflight := some k }

/-- One clock cycle. A read returns the state before a completion of the same cycle, and a write counts as one while BUSY = 1
(20_memory.md R71), since the host's part comes first. Reset overrides everything (70_reset_and_hazards.md R280, R282). -/
def clockCycle (s : State) : Host.Outcome State Fault Refusal :=
  match resetDriven s.host with
  | some (p, rest) => .next (s.resetPart p rest)
  | none =>
    match s.hostPart with
    | .next t => t.blockPart s.inflight
    | .fault f => .fault f
    | .refused r => .refused r

/-- The state in which the next cycle completes the command word given: issued (60_exceptions.md R261), with no cycle left
to wait, and an idle cycle on the ports. -/
def State.placeCommand (s : State) (w : Word) : State :=
  { s with
    cmd := w
    inflight := some 0
    done := false
    result := .none
    host := .drive idleCycle :: s.host }

end Sys2Proof.Machine
end

