-- ==== Sys2Proof/Safety.lean ====
section
/-! DEFINITION. The terms claims use: the invariant of the machine, what a completion leaves, which commands read IN, when a
command's checks fail, and several cycles in a row. -/

namespace Sys2Proof.Machine

/-- The invariant every step keeps (10_state.md R34-R37, R50-R52, R56; 20_memory.md R76, R78). -/
structure State.Inv (s : State) : Prop where
  /-- The memory is in canonical form (log entries 7, 11). -/
  canonical : s.mem.wf
  /-- Only bytes of the two buffers' words are listed. -/
  placed : ∀ c ∈ s.mem, (inBase ≤ c.1 ∧ c.1 < inBase + 4 * bufferWords s.cfg) ∨
    (outBase ≤ c.1 ∧ c.1 < outBase + 4 * bufferWords s.cfg)
  /-- An IN word has been written whole or not at all (10_state.md R56). -/
  whole : ∀ j < bufferWords s.cfg, ∀ t < 4,
    (Memory.lookup s.mem (inBase + 4 * j + t)).isSome = s.inWritten j
  /-- IN bits at N_MAX and above are 0 (20_memory.md R76). -/
  inTail : ∀ i, nMax s.cfg ≤ i → i < 32 * bufferWords s.cfg → s.inBit i = false
  /-- OUTLEN is at most N_MAX (10_state.md R44, R51). -/
  outLenBound : s.outLen.toNat ≤ nMax s.cfg
  /-- OUT bits at OUTLEN and above are 0: after a completion by 10_state.md R52, before the first one by the model's choice of
  what an unlisted byte reads as (log entry 11). -/
  outTail : ∀ i, s.outLen.toNat ≤ i → i < 32 * bufferWords s.cfg → s.outBit i = false
  /-- Before the first completion nothing of OUT is held (10_state.md R51, R56). -/
  outBlank : s.outValid = false → s.outLen = 0 ∧ ∀ c ∈ s.mem, c.1 < outBase
  /-- BUSY = 1 implies DONE = 0 (10_state.md R35). -/
  busyNotDone : s.busy = true → s.done = false
  /-- While a command is in flight RESULT is NONE (10_state.md R37). -/
  busyNoResult : s.busy = true → s.result = .none
  /-- Once a command has completed there is a code and OUT is valid (10_state.md R35, R37, R56). -/
  doneResult : s.done = true → s.result ≠ .none ∧ s.outValid = true

/-- The frame of a completion: everything but RES0-RES2, OUTLEN, OUT, RESULT and the handshake is unchanged
(60_exceptions.md R262). The bytes stored to are OUT words 0 to W - 1. -/
structure Kept (s t : State) : Prop where
  cfg : t.cfg = s.cfg
  cmd : t.cmd = s.cmd
  arg : t.arg = s.arg
  arg2 : t.arg2 = s.arg2
  ovr : t.ovr = s.ovr
  rdata : t.rdata = s.rdata
  host : t.host = s.host
  draws : t.draws = s.draws
  bytes : ∀ a, a < outBase ∨ outBase + 4 * bufferWords s.cfg ≤ a → t.mem.readByte a = s.mem.readByte a

/-- What a completion with the given code, result words and output leaves (60_exceptions.md R256, R262; 10_state.md R52). -/
structure Completed (s t : State) (code : Result) (r0 r1 r2 : Nat) (out : List Bool) : Prop where
  result : t.result = code
  res0 : t.res0.toNat = r0
  res1 : t.res1.toNat = r1
  res2 : t.res2.toNat = r2
  outLen : t.outLen.toNat = out.length
  out : ∀ i < nMax s.cfg, t.outBit i = bitAt out i
  idle : t.busy = false
  done : t.done = true
  outValid : t.outValid = true
  kept : Kept s t

/-- SYNDROME, CORRECT and DECODE take a codeword (30_encoding.md R101). -/
def takesCodeword : Instr → Bool
  | .layout => false
  | .pclass => false
  | .dpos => false
  | .encode => false
  | .syndrome => true
  | .correct => true
  | .decode => true

/-- The commands that read IN (10_state.md R50). -/
def readsIn : Instr → Bool
  | .layout => false
  | .pclass => false
  | .dpos => false
  | .encode => true
  | .syndrome => true
  | .correct => true
  | .decode => true

/-- When a command fails with RANGE (60_exceptions.md R254). -/
def OutOfRange (i : Instr) (s : State) : Prop :=
  match i with
  | .layout => dataMax s.cfg < s.arg.toNat
  | .pclass => hMax s.cfg < s.arg.toNat
  | .dpos => s.arg.toNat = 0 ∨ dataMax s.cfg < s.arg.toNat
  | .encode => dataMax s.cfg < s.arg.toNat
  | .syndrome => nMax s.cfg < s.arg.toNat
  | .correct => nMax s.cfg < s.arg.toNat
  | .decode => nMax s.cfg < s.arg.toNat

/-- When a command fails with MALFORMED (60_exceptions.md R255): n <= N_MAX, and n = 0 or n - 1 is a power of two. -/
def Malformed (i : Instr) (s : State) : Prop :=
  takesCodeword i = true ∧ s.arg.toNat ≤ nMax s.cfg ∧ (s.arg.toNat = 0 ∨ ∃ k, s.arg.toNat = 2 ^ k + 1)

/-- When a command raises the model fault (10_state.md R56): it reads IN, its RANGE and MALFORMED checks pass, and a word
holding a bit below its length was never written. -/
def Unwritten (i : Instr) (s : State) : Prop :=
  readsIn i = true ∧ ¬ OutOfRange i s ∧ ¬ Malformed i s ∧ ∃ j, 32 * j < s.arg.toNat ∧ s.inWritten j = false

/-- Two states with the same instance, operands and IN words: the same operand snapshot (00_scope.md R16, 10_state.md R55). -/
structure SameOperands (s t : State) : Prop where
  cfg : t.cfg = s.cfg
  arg : t.arg = s.arg
  arg2 : t.arg2 = s.arg2
  words : ∀ j < bufferWords s.cfg, t.inWord j = s.inWord j

/-- The state u offers, as its IN and ARG, the codeword that t holds in OUT with the bits of the indices e flipped: the host has
copied it (70_reset_and_hazards.md R288). -/
structure Carries (t u : State) (e : List Nat) : Prop where
  cfg : u.cfg = t.cfg
  length : u.arg.toNat = t.outLen.toNat
  written : u.operandWritten u.arg.toNat = true
  bits : ∀ i < t.outLen.toNat, u.inBit i = (t.outBit i ^^ decide (i ∈ e))

/-- The number of data positions in 1..p (40_layout.md R133, R136). -/
def dataPositions (p : Nat) : Nat := ((positions p).filter (fun q => !isPow2 q)).length

/-- k cycles in a row, stopping at the first fault or refusal. -/
def cycles : Nat → State → Host.Outcome State Fault Refusal
  | 0, s => .next s
  | k + 1, s =>
    match step s with
    | .next t => cycles k t
    | .fault f => .fault f
    | .refused r => .refused r

/-- The next cycle is one with rst = 1 (70_reset_and_hazards.md R280). -/
def ResetNext (s : State) : Prop := ∃ p rest, s.host = .drive p :: rest ∧ p.rst = true

/-- The next cycle is a write of v at offset a, rst being 0 (20_memory.md R71). -/
def WriteNext (s : State) (a : Offset) (v : Word) : Prop :=
  ∃ p rest, s.host = .drive p :: rest ∧ p.rst = false ∧ p.we = true ∧ p.re = false ∧ p.addr = a ∧ p.wdata = v

/-- The next cycle is a read at offset a, rst being 0 (20_memory.md R71). -/
def ReadNext (s : State) (a : Offset) : Prop :=
  ∃ p rest, s.host = .drive p :: rest ∧ p.rst = false ∧ p.we = false ∧ p.re = true ∧ p.addr = a

end Sys2Proof.Machine
end

