-- ==== Sys2Proof/Certificates/Slice0/Obligations.lean ====
section
/-! DEFINITION. The statements about the block, in the order of spec/: decoding, reset, the bus, the step, the layout commands,
the encoder, the syndrome, the corrector, the decoder, results and errors, and the whole machine. Where a statement speaks of
`hostPart` it is about the host's transaction of a cycle, whatever is in flight; `CycleOrder` ties it to `step`. The fields
`host` and `draws` are the model's own, and `rdata` holds the read port: what a statement says of these three is the model's
bookkeeping (log entries 2, 4, 9), not a rule of the spec. -/

open Sys2Proof Sys2Proof.Machine

/-! Encoding -/

/-- The CMD values of 30_encoding.md R103, written out. -/
def Obligations.CommandWordsDecode : Prop :=
  decodeCmd 0x00000001 = .command .layout ∧ decodeCmd 0x00000002 = .command .pclass ∧
  decodeCmd 0x00000003 = .command .dpos ∧ decodeCmd 0x00000004 = .command .encode ∧
  decodeCmd 0x00000005 = .command .syndrome ∧ decodeCmd 0x00000006 = .command .correct ∧
  decodeCmd 0x00000007 = .command .decode

/-- 30_encoding.md R106: every 32-bit value decodes to exactly one command or to ILLEGAL, and to a command exactly when it is
that command's encoding, which is so for the seven values 1 to 7. -/
def Obligations.DecodeIsInverseOfEncode : Prop :=
  (∀ (w : Word) (i : Instr), decodeCmd w = .command i ↔ w = encode i) ∧
  (∀ w : Word, (∀ i : Instr, w ≠ encode i) → ∃ why, decodeCmd w = .illegal why) ∧
  ∀ w : Word, (∃ i, decodeCmd w = .command i) ↔ 1 ≤ w.toNat ∧ w.toNat ≤ 7

/-- 60_exceptions.md R253 (30_encoding.md R104, R105): a command in flight whose CMD[31:4] is not 0, or whose CMD[3:0] is 0 or 8
to 15, completes with ILLEGAL_OP, whatever ARG, ARG2 and IN hold, whether or not IN was written, and whatever the host does in
that cycle (its part of the cycle leads to u). -/
def Obligations.IllegalCommandCompletes : Prop :=
  ∀ s u : State, s.inflight = some 0 → ¬ ResetNext s → s.hostPart = .next u →
    (s.cmd.extractLsb' 4 28 ≠ 0 ∨ (s.cmd.extractLsb' 0 4).toNat = 0 ∨ 8 ≤ (s.cmd.extractLsb' 0 4).toNat) →
    ∃ t, step s = .next t ∧ Completed u t .illegalOp 0 0 0 []

/-- 30_encoding.md section 5: the transactions of a command pseudo-instruction, run while BUSY = 0, leave its operands in ARG
(and ARG2) and its command in flight; CLEAR clears DONE and OVR. -/
def Obligations.PseudoInstructionsIssue : Prop :=
  ∀ s : State, s.busy = false →
    (∀ (x : Word) (st : Stmt) (i : Instr),
      (st, i) ∈ [(Stmt.layout x, Instr.layout), (.pclass x, .pclass), (.dpos x, .dpos), (.encode x, .encode),
        (.syndrome x, .syndrome), (.decode x, .decode)] →
      ∃ t, cycles 2 { s with host := encodeStmt st } = .next t ∧
        t.arg = x ∧ t.cmd = encode i ∧ t.busy = true ∧ t.mem = s.mem ∧ t.host = []) ∧
    (∀ (n y : Word) (o : Bool), (Stmt.correct n y o).wellFormed = true →
      ∃ t, cycles 3 { s with host := encodeStmt (.correct n y o) } = .next t ∧
        t.arg = n ∧ t.argSyndrome = y.toNat ∧ t.argOverall = o ∧ t.cmd = encode .correct ∧ t.busy = true ∧ t.mem = s.mem ∧
        t.host = []) ∧
    step { s with host := encodeStmt .clear } = .next { s with done := false, ovr := false, rdata := none, host := [] }

/-! Reset -/

/-- 70_reset_and_hazards.md R281: the values of the state after reset. CFG_MMAX and CFG_NMAX read DATA_MAX and N_MAX of the
instance; which instance it is, is the model's choice (log entry 1) and not stated. -/
def Obligations.ResetValues : Prop :=
  let s := State.reset
  s.cmd = 0 ∧ s.arg = 0 ∧ s.arg2 = 0 ∧ s.status = 0 ∧ s.res0 = 0 ∧ s.res1 = 0 ∧ s.res2 = 0 ∧ s.outLen = 0 ∧
  s.inflight = none ∧ (∀ j, j < bufferWords s.cfg → s.inWritten j = false) ∧ s.outValid = false ∧
  (s.readCsr .cfgMmax).rdata = some (BitVec.ofNat 32 (dataMax s.cfg)) ∧
  (s.readCsr .cfgNmax).rdata = some (BitVec.ofNat 32 (nMax s.cfg))

/-- 70_reset_and_hazards.md R280: a cycle with rst high, whatever the other ports drive and whatever is in flight, leaves every
register at its reset value, no command in flight, nothing of IN written and OUT not valid; DATA_MAX stays. -/
def Obligations.ResetEdge : Prop :=
  ∀ s : State, ResetNext s → ∃ t, step s = .next t ∧
    t.cfg = s.cfg ∧ t.cmd = 0 ∧ t.arg = 0 ∧ t.arg2 = 0 ∧ t.status = 0 ∧ t.res0 = 0 ∧ t.res1 = 0 ∧ t.res2 = 0 ∧ t.outLen = 0 ∧
    t.inflight = none ∧ (∀ j, j < bufferWords t.cfg → t.inWritten j = false) ∧ t.outValid = false ∧ t.host = s.host.tail

/-- The reset state meets the invariant. What the invariant says of single bytes of the memory, and of OUT before the first
completion, which the spec leaves unspecified (10_state.md R51), is the model's choice (log entries 7, 11). -/
def Obligations.ResetMeetsInvariant : Prop := State.reset.Inv

/-! The bus -/

/-- 10_state.md R33, R38: the fields of the STATUS word, with the result codes of 60_exceptions.md R251 (10_state.md R37); it is 0
after reset; a host write to STATUS clears DONE and OVR where bits 1 and 2 are 1, and nothing else changes; it is never dropped. -/
def Obligations.StatusRegister : Prop :=
  (∀ s : State, s.status.getLsbD 0 = s.busy ∧ s.status.getLsbD 1 = s.done ∧ s.status.getLsbD 2 = s.ovr ∧
    s.status.getLsbD 3 = false ∧ s.status.extractLsb' 4 4 = resultCode s.result ∧ ∀ b, 8 ≤ b → s.status.getLsbD b = false) ∧
  (∀ s : State, ∀ x ∈ [(Result.none, (0 : BitVec 4)), (.ok, 1), (.corrected, 2), (.globalFix, 3), (.uncorrectable, 4),
      (.malformed, 5), (.range, 6), (.illegalOp, 7)], s.result = x.1 → s.status.extractLsb' 4 4 = x.2) ∧
  State.reset.status = 0 ∧
  ∀ (s : State) (v : Word), WriteNext s 0x00004 v →
    s.hostPart = .next { s with
      done := s.done && !v.getLsbD 1, ovr := s.ovr && !v.getLsbD 2, rdata := none, host := s.host.tail }

/-- 10_state.md section 2: while BUSY = 0 a read of each register returns its value and changes nothing else; CFG_MMAX and
CFG_NMAX read DATA_MAX and N_MAX (R45, R46). -/
def Obligations.RegisterReads : Prop :=
  ∀ (s : State) (a : Offset) (v : Word), s.busy = false →
    (a, v) ∈ [(0x00000, s.cmd), (0x00004, s.status), (0x00008, s.arg), (0x0000C, s.arg2), (0x00010, s.res0), (0x00014, s.res1),
      (0x00018, s.res2), (0x0001C, s.outLen), (0x00020, BitVec.ofNat 32 (dataMax s.cfg)),
      (0x00024, BitVec.ofNat 32 (nMax s.cfg))] →
    ReadNext s a → s.hostPart = .next { s with rdata := some v, host := s.host.tail }

/-- 20_memory.md R81: while BUSY = 1, CMD, STATUS, ARG, ARG2, the CFG registers and written IN words still read as their rules
give, and a read of RES0, RES1, RES2, OUTLEN or an OUT word returns some word, about which nothing is said; it changes nothing
but the count of draws. -/
def Obligations.ReadsWhileBusy : Prop :=
  ∀ (s : State) (a : Offset), s.busy = true → ReadNext s a →
    (∀ v, (a, v) ∈ [(0x00000, s.cmd), (0x00004, s.status), (0x00008, s.arg), (0x0000C, s.arg2),
        (0x00020, BitVec.ofNat 32 (dataMax s.cfg)), (0x00024, BitVec.ofNat 32 (nMax s.cfg))] →
      s.hostPart = .next { s with rdata := some v, host := s.host.tail }) ∧
    (∀ j v, j < bufferWords s.cfg → a.toNat = 0x10000 + 4 * j → s.inWord j = some v →
      ∃ w, s.hostPart = .next { s with rdata := some w, host := s.host.tail } ∧
        ∀ b, b < 32 → w.getLsbD b = (decide (32 * j + b < nMax s.cfg) && v.getLsbD b)) ∧
    (∀ j, bufferWords s.cfg ≤ j → j < 16384 → a.toNat = 0x10000 + 4 * j →
      s.hostPart = .next { s with rdata := some 0, host := s.host.tail }) ∧
    (a ∈ [0x00010, 0x00014, 0x00018, 0x0001C] ∨ (∃ j, j < bufferWords s.cfg ∧ a.toNat = 0x20000 + 4 * j) →
      ∃ w, s.hostPart = .next { s with rdata := some w, host := s.host.tail, draws := s.draws + 1 })

/-- 20_memory.md R75: a reserved offset reads as 0 and ignores writes, whatever BUSY is. -/
def Obligations.ReservedOffsets : Prop :=
  ∀ (s : State) (a : Offset), aligned a = true → (0x28 ≤ a.toNat ∧ a.toNat < 0x10000 ∨ 0x30000 ≤ a.toNat) →
    (ReadNext s a → s.hostPart = .next { s with rdata := some 0, host := s.host.tail }) ∧
    ∀ v, WriteNext s a v → s.hostPart = .next { s with rdata := none, host := s.host.tail }

/-- 20_memory.md R76: a write to IN word j while BUSY = 0 stores bit b of it in IN[32*j + b] where that is below N_MAX, marks the
word written, leaves every other IN word and all else unchanged, and does nothing for j >= W; a read, whatever BUSY is, returns 0
in the bits at N_MAX and above and, of a written word, IN in the others. What those are in a word never written is free (log
entry 5). -/
def Obligations.InWindow : Prop :=
  ∀ (s : State) (a : Offset) (j : Nat), j < 16384 → a.toNat = 0x10000 + 4 * j →
    (∀ v, s.busy = false → WriteNext s a v →
      ∃ m, s.hostPart = .next { s with mem := m, rdata := none, host := s.host.tail } ∧
        (bufferWords s.cfg ≤ j → m = s.mem) ∧
        (j < bufferWords s.cfg → ({ s with mem := m } : State).inWritten j = true ∧
          ∀ b, b < 32 → ({ s with mem := m } : State).inBit (32 * j + b) =
            (decide (32 * j + b < nMax s.cfg) && v.getLsbD b)) ∧
        ∀ x, x < 0x10000 + 4 * j ∨ 0x10000 + 4 * j + 4 ≤ x → Memory.readByte m x = Memory.readByte s.mem x) ∧
    (ReadNext s a →
      ∃ w d, s.hostPart = .next { s with rdata := some w, host := s.host.tail, draws := d } ∧
        (∀ b, b < 32 → nMax s.cfg ≤ 32 * j + b → w.getLsbD b = false) ∧
        (s.inWritten j = true → ∀ b, b < 32 → 32 * j + b < nMax s.cfg → w.getLsbD b = s.inBit (32 * j + b)))

/-- 20_memory.md R78: a read of OUT word j returns 0 in the bits at N_MAX and above and, after a completion and while BUSY = 0, OUT
in the others; a write to the OUT window is ignored whatever BUSY is. -/
def Obligations.OutWindow : Prop :=
  ∀ (s : State) (a : Offset) (j : Nat), j < 16384 → a.toNat = 0x20000 + 4 * j →
    (ReadNext s a →
      ∃ w d, s.hostPart = .next { s with rdata := some w, host := s.host.tail, draws := d } ∧
        (∀ b, b < 32 → nMax s.cfg ≤ 32 * j + b → w.getLsbD b = false) ∧
        (s.busy = false → s.outValid = true →
          ∀ b, b < 32 → 32 * j + b < nMax s.cfg → w.getLsbD b = s.outBit (32 * j + b))) ∧
    ∀ v, WriteNext s a v → s.hostPart = .next { s with rdata := none, host := s.host.tail }

/-- 20_memory.md R80: while BUSY = 1 a write to CMD, ARG, ARG2 or an IN word below W sets OVR and changes nothing else; a write
to STATUS clears the flags it names, and a write anywhere else has no effect, so neither sets OVR. -/
def Obligations.WritesWhileBusyDropped : Prop :=
  ∀ (s : State) (a : Offset) (v : Word), s.busy = true → aligned a = true → WriteNext s a v →
    (a = 0x00000 ∨ a = 0x00008 ∨ a = 0x0000C ∨ (∃ j, j < bufferWords s.cfg ∧ a.toNat = 0x10000 + 4 * j) →
      s.hostPart = .next { s with ovr := true, rdata := none, host := s.host.tail }) ∧
    (¬ (a = 0x00000 ∨ a = 0x00008 ∨ a = 0x0000C ∨ (∃ j, j < bufferWords s.cfg ∧ a.toNat = 0x10000 + 4 * j)) →
      s.hostPart = .next { s with
        done := if a = 0x00004 then s.done && !v.getLsbD 1 else s.done
        ovr := if a = 0x00004 then s.ovr && !v.getLsbD 2 else s.ovr
        rdata := none
        host := s.host.tail })

/-- 10_state.md section 2: while BUSY = 0 a write to ARG or ARG2 stores the value, and a write to a read-only register has no
effect (whatever BUSY is). -/
def Obligations.RegisterWrites : Prop :=
  ∀ (s : State) (v : Word),
    (s.busy = false → WriteNext s 0x00008 v → s.hostPart = .next { s with arg := v, rdata := none, host := s.host.tail }) ∧
    (s.busy = false → WriteNext s 0x0000C v → s.hostPart = .next { s with arg2 := v, rdata := none, host := s.host.tail }) ∧
    ∀ a ∈ [(0x00010 : Offset), 0x00014, 0x00018, 0x0001C, 0x00020, 0x00024], WriteNext s a v →
      s.hostPart = .next { s with rdata := none, host := s.host.tail }

/-- 60_exceptions.md R261 (10_state.md R32): a write to CMD while BUSY = 0 is accepted whatever its value: it stores the value,
sets BUSY, clears DONE, sets RESULT to NONE, and changes nothing else of the block. The latency is some number, about which
nothing is said. -/
def Obligations.CmdWriteIssues : Prop :=
  ∀ (s : State) (v : Word), s.busy = false → WriteNext s 0x00000 v →
    ∃ k, step s = .next { s with
      cmd := v, inflight := some k, done := false, result := .none, rdata := none, host := s.host.tail, draws := s.draws + 1 }

/-- 20_memory.md R82: a read changes nothing but the read port (and the model's queue and count of draws), and returns a word. -/
def Obligations.ReadsHaveNoSideEffect : Prop :=
  ∀ (s : State) (a : Offset), aligned a = true → ReadNext s a →
    ∃ w d, s.hostPart = .next { s with rdata := some w, host := s.host.tail, draws := d }

/-- 20_memory.md R70, R74, 70_reset_and_hazards.md R280, R282: a step is refused exactly for an access with both strobes high or a
misaligned one, rst being 0. That both strobes are the reason given where the access is misaligned too is the model's choice (log
entry 10). -/
def Obligations.RefusesExactlyUndefinedAccesses : Prop :=
  ∀ (s : State) (r : Refusal), step s = .refused r ↔
    ∃ p rest, s.host = .drive p :: rest ∧ p.rst = false ∧
      ((p.we = true ∧ p.re = true ∧ r = .bothStrobes) ∨ (p.we ≠ p.re ∧ p.addr.toNat % 4 ≠ 0 ∧ r = .misaligned))

/-! The step -/

/-- 20_memory.md R71, 60_exceptions.md R262: in a cycle with rst 0 the host's transaction comes first; then nothing in flight
before it means nothing more happens, a command with cycles left waits, and one with none left completes, by the meaning of
the command its CMD value decodes to, on operands the transaction has not changed. -/
def Obligations.CycleOrder : Prop :=
  ∀ s u : State, ¬ ResetNext s → s.hostPart = .next u →
    (s.inflight = none → step s = .next u) ∧
    (∀ k, s.inflight = some (k + 1) → step s = .next { u with inflight := some k }) ∧
    (s.inflight = some 0 →
      (∀ i, decodeCmd s.cmd = .command i → step s = exec i u) ∧
      u.cfg = s.cfg ∧ u.cmd = s.cmd ∧ u.arg = s.arg ∧ u.arg2 = s.arg2 ∧ u.mem = s.mem)

/-- The step runs the decoded command: with an idle port, and in the state `withFetchWord` builds for a command's word (the
model's, log entry 4). -/
def Obligations.StepRunsDecodedCommand : Prop :=
  (∀ (s : State) (i : Instr), s.inflight = some 0 → s.host = [] → decodeCmd s.cmd = .command i →
    step s = exec i { s with rdata := none }) ∧
  ∀ (s : State) (i : Instr), step (s.withFetchWord 32 (encode i).toNat) =
    exec i { s with cmd := encode i, inflight := some 0, done := false, result := .none, rdata := none }

/-- 10_state.md R55, 20_memory.md R87: a step from a state with a command in flight, without reset, leaves CMD, ARG, ARG2 and
every byte of IN as they were: a command computes on the operands as they stood at its issue. -/
def Obligations.OperandsHeldInFlight : Prop :=
  ∀ s t : State, s.busy = true → ¬ ResetNext s → step s = .next t →
    t.cmd = s.cmd ∧ t.arg = s.arg ∧ t.arg2 = s.arg2 ∧ ∀ a, a < 0x20000 → Memory.readByte t.mem a = Memory.readByte s.mem a

/-- 70_reset_and_hazards.md R290 (00_scope.md R8): a command with k cycles left, the ports idle, runs to its completion in k + 1
cycles. -/
def Obligations.CompletesWithinLatency : Prop :=
  ∀ (k : Nat) (s : State) (i : Instr), s.inflight = some k → s.host = [] → decodeCmd s.cmd = .command i →
    cycles (k + 1) s = exec i { s with inflight := some 0, rdata := none }

/-- 30_encoding.md R111, with polling as an entry of the model's queue (log entry 4): a host polling STATUS while a command with k cycles left is in flight, which completes without the model
fault, stops after k + 2 cycles, on a read with BUSY = 0, DONE = 1 and the command's code, and nothing of the queue after the
poll has been used. -/
def Obligations.WaitLoopEnds : Prop :=
  ∀ (k : Nat) (s u : State) (rest : List HostStep), s.inflight = some k → s.host = .poll :: rest →
    s.completionStep = .next u →
    ∃ t w, cycles (k + 2) s = .next t ∧ t.host = rest ∧ t.rdata = some w ∧ w.getLsbD 0 = false ∧ w.getLsbD 1 = true ∧
      w.extractLsb' 4 4 = resultCode u.result

/-! Layout arithmetic and the layout commands -/

/-- 00_scope.md R9 (R7): for every DATA_MAX the buffers fit the windows. -/
def Obligations.BuffersFitWindows : Prop :=
  ∀ cfg : Config, nMax cfg ≤ 524288 ∧ bufferWords cfg ≤ 16384 ∧ nMax cfg ≤ 32 * bufferWords cfg ∧
    32 * bufferWords cfg < nMax cfg + 32

/-- 40_layout.md R133: in the layout of m the parity positions in 1..h are exactly 2^0 to 2^(r-1), and there are m data positions. -/
def Obligations.ParityPositionsOfLayout : Prop :=
  ∀ m : Nat, (∀ i, i < rcount m → 1 ≤ 2 ^ i ∧ 2 ^ i ≤ m + rcount m) ∧
    (∀ p, 1 ≤ p → p ≤ m + rcount m → (isPow2 p = true ↔ ∃ i, i < rcount m ∧ p = 2 ^ i)) ∧
    dataPositions (m + rcount m) = m

/-- 40_layout.md R134, R135: n is well formed exactly when it is m + rcount(m) + 1 for some m, that m is unique, the malformed
lengths are 0 and the powers of two plus one, and layoutOf gives the layout of m. -/
def Obligations.WellFormedLengths : Prop :=
  (∀ n, wellFormedLength n = true ↔ ∃ m, n = m + rcount m + 1) ∧
  (∀ n, wellFormedLength n = false ↔ n = 0 ∨ ∃ k, n = 2 ^ k + 1) ∧
  (∀ m m', m + rcount m + 1 = m' + rcount m' + 1 → m = m') ∧
  ∀ m, layoutOf (m + rcount m + 1) = layout m

/-- 40_layout.md R136, R137: rank counts the data positions up to its own, and rank and dpos are inverse to each other. -/
def Obligations.RankAndPositionInverse : Prop :=
  (∀ p, 1 ≤ p → isPow2 p = false → rank p = p - (Nat.log2 p + 1) ∧ rank p = dataPositions p ∧ dpos (rank p) = p) ∧
  ∀ k, 1 ≤ k → dpos k = k + rcount k ∧ isPow2 (dpos k) = false ∧ rank (dpos k) = k

/-- 40_layout.md R140, R143: LAYOUT completes with RES0 the smallest r with 2^r >= m + r + 1, RES1 = m + r + 1, RES2 = m + r, and
with RANGE when m > DATA_MAX. -/
def Obligations.LayoutCommand : Prop :=
  ∀ s : State,
    (s.arg.toNat ≤ dataMax s.cfg → ∃ t r, exec .layout s = .next t ∧ s.arg.toNat + r + 1 ≤ 2 ^ r ∧
      (∀ r', r' < r → 2 ^ r' < s.arg.toNat + r' + 1) ∧
      Completed s t .ok r (s.arg.toNat + r + 1) (s.arg.toNat + r) []) ∧
    (dataMax s.cfg < s.arg.toNat → ∃ t, exec .layout s = .next t ∧ Completed s t .range 0 0 0 [])

/-- 40_layout.md R141: PCLASS completes with GLOBAL (2) for index 0, PARITY (1) and the check index i for 2^i, DATA (0) and the
rank for any other position up to H_MAX, and with RANGE beyond. -/
def Obligations.PclassCommand : Prop :=
  ∀ s : State,
    (s.arg.toNat ≤ hMax s.cfg → ∃ t, exec .pclass s = .next t ∧
      (s.arg.toNat = 0 → Completed s t .ok 2 0 0 []) ∧
      (∀ i, s.arg.toNat = 2 ^ i → Completed s t .ok 1 i 0 []) ∧
      (s.arg.toNat ≠ 0 → (∀ i, s.arg.toNat ≠ 2 ^ i) → Completed s t .ok 0 (rank s.arg.toNat) 0 [])) ∧
    (hMax s.cfg < s.arg.toNat → ∃ t, exec .pclass s = .next t ∧ Completed s t .range 0 0 0 [])

/-- 40_layout.md R142: DPOS completes with the position of the data bit of rank k, which is a data position with exactly k data
positions up to it, and with RANGE for k = 0 or k > DATA_MAX. -/
def Obligations.DposCommand : Prop :=
  ∀ s : State,
    (1 ≤ s.arg.toNat → s.arg.toNat ≤ dataMax s.cfg → ∃ t, exec .dpos s = .next t ∧
      Completed s t .ok (dpos s.arg.toNat) 0 0 [] ∧ (∀ i, dpos s.arg.toNat ≠ 2 ^ i) ∧
      dataPositions (dpos s.arg.toNat) = s.arg.toNat) ∧
    (s.arg.toNat = 0 ∨ dataMax s.cfg < s.arg.toNat → ∃ t, exec .dpos s = .next t ∧ Completed s t .range 0 0 0 [])

/-! The encoder -/

/-- 41_encode.md R161: ENCODE completes with the codeword of IN[0..m-1] in OUT and its layout in RES0-RES2, with RANGE when
m > DATA_MAX; the model fault when a word it reads was never written (10_state.md R56). -/
def Obligations.EncodeCommand : Prop :=
  ∀ s : State,
    (s.arg.toNat ≤ dataMax s.cfg → s.operandWritten s.arg.toNat = true → ∃ t r, exec .encode s = .next t ∧
      r = rcount s.arg.toNat ∧ (enc (s.inBits s.arg.toNat)).length = s.arg.toNat + r + 1 ∧
      Completed s t .ok r (s.arg.toNat + r + 1) (s.arg.toNat + r) (enc (s.inBits s.arg.toNat))) ∧
    (dataMax s.cfg < s.arg.toNat → ∃ t, exec .encode s = .next t ∧ Completed s t .range 0 0 0 []) ∧
    (s.arg.toNat ≤ dataMax s.cfg → s.operandWritten s.arg.toNat = false → exec .encode s = .fault .unwrittenOperand)

/-- 41_encode.md R162: a codeword has length m + r + 1, every parity check passes, all its bits XOR to 0, and the data bit of rank k
stands at dpos(k). -/
def Obligations.CodewordInvariants : Prop :=
  ∀ d : List Bool, (enc d).length = d.length + rcount d.length + 1 ∧
    (∀ i, i < rcount d.length → xorWhere (fun p => decide (1 ≤ p) && p.testBit i) (enc d) = false) ∧
    xorWhere (fun _ => true) (enc d) = false ∧
    ∀ k, 1 ≤ k → k ≤ d.length → bitAt (enc d) (dpos k) = bitAt d (k - 1)

/-- 41_encode.md R163: two distinct data sequences of one length have codewords that differ in at least 4 positions. -/
def Obligations.MinimumDistanceFour : Prop :=
  ∀ d d' : List Bool, d.length = d'.length → d ≠ d' →
    4 ≤ ((List.range (enc d).length).filter (fun i => bitAt (enc d) i != bitAt (enc d') i)).length

/-! The syndrome -/

/-- 42_syndrome.md R180, R181: bit i of the syndrome is the XOR of the positions 1..h that have bit i set, for i below r; and the
syndrome is the XOR of the positions whose bit is 1, for every codeword of a well-formed length. -/
def Obligations.SyndromeIsXorOfPositions : Prop :=
  ∀ c : List Bool, wellFormedLength c.length = true →
    (∀ i, (synd c).testBit i =
      (decide (i < (layoutOf c.length).r) && xorWhere (fun p => decide (1 ≤ p) && p.testBit i) c)) ∧
    synd c = ((positions (c.length - 1)).filter (bitAt c)).foldl (· ^^^ ·) 0

/-- 42_syndrome.md R184: flipping the bits of distinct indices XORs the positions into the syndrome and the parity of their number
into the overall check; what one flip and two flips of an encoded codeword give. -/
def Obligations.SyndromeLinear : Prop :=
  (∀ (c : List Bool) (e : List Nat), wellFormedLength c.length = true → e.Nodup → (∀ p ∈ e, p < c.length) →
    synd (e.foldl flipBit c) = synd c ^^^ e.foldl (· ^^^ ·) 0 ∧
    ovc (e.foldl flipBit c) = (ovc c ^^ decide (e.length % 2 = 1))) ∧
  (∀ (d : List Bool) (p : Nat), p < (enc d).length →
    synd (flipBit (enc d) p) = p ∧ ovc (flipBit (enc d) p) = true) ∧
  ∀ (d : List Bool) (p q : Nat), p < (enc d).length → q < (enc d).length → p ≠ q →
    synd (flipBit (flipBit (enc d) p) q) = p ^^^ q ∧ p ^^^ q ≠ 0 ∧ ovc (flipBit (flipBit (enc d) p) q) = false

/-- 42_syndrome.md R185: the syndrome is below 2^r, and r is at most R_MAX for a length the block accepts. -/
def Obligations.SyndromeBound : Prop :=
  ∀ (cfg : Config) (c : List Bool), wellFormedLength c.length = true → c.length ≤ nMax cfg →
    synd c < 2 ^ (layoutOf c.length).r ∧ (layoutOf c.length).r ≤ rMax cfg ∧ rMax cfg ≤ 19

/-- 42_syndrome.md R183: SYNDROME completes with OK and s, o, m for every codeword, with RANGE when n > N_MAX, with MALFORMED when n
is no codeword length; the model fault when a word it reads was never written. -/
def Obligations.SyndromeCommand : Prop :=
  ∀ s : State,
    (s.arg.toNat ≤ nMax s.cfg → wellFormedLength s.arg.toNat = true → s.operandWritten s.arg.toNat = true →
      ∃ t, exec .syndrome s = .next t ∧
        Completed s t .ok (synd (s.inBits s.arg.toNat)) (ovc (s.inBits s.arg.toNat)).toNat (layoutOf s.arg.toNat).m []) ∧
    (nMax s.cfg < s.arg.toNat → ∃ t, exec .syndrome s = .next t ∧ Completed s t .range 0 0 0 []) ∧
    (s.arg.toNat ≤ nMax s.cfg → wellFormedLength s.arg.toNat = false →
      ∃ t, exec .syndrome s = .next t ∧ Completed s t .malformed 0 0 0 []) ∧
    (s.arg.toNat ≤ nMax s.cfg → wellFormedLength s.arg.toNat = true → s.operandWritten s.arg.toNat = false →
      exec .syndrome s = .fault .unwrittenOperand)

/-! The corrector -/

/-- 43_correct.md R200: the decision function, row by row. -/
def Obligations.DecisionTable : Prop :=
  ∀ s h : Nat,
    (s = 0 → classify s false h = .noErr ∧ classify s true h = .globalErr) ∧
    (s ≠ 0 → classify s false h = .uncorr) ∧
    (s ≠ 0 → s ≤ h → classify s true h = .single s) ∧
    (h < s → classify s true h = .uncorr)

/-- 43_correct.md R202: CORRECT applies the (s, o) of ARG2 to IN[0..n-1]: the codeword unchanged, with index 0 flipped, with index s
flipped, or UNCORRECTABLE with no output; RANGE, MALFORMED and the model fault as for SYNDROME. -/
def Obligations.CorrectCommand : Prop :=
  ∀ s : State,
    let n := s.arg.toNat
    let y := (s.arg2.extractLsb' 0 31).toNat
    let o := s.arg2.getLsbD 31
    (n ≤ nMax s.cfg → wellFormedLength n = true → s.operandWritten n = true →
      ∃ t, exec .correct s = .next t ∧
        (y = 0 → o = false → Completed s t .ok 0 0 (layoutOf n).m (s.inBits n)) ∧
        (y = 0 → o = true → Completed s t .globalFix 0 1 (layoutOf n).m (flipBit (s.inBits n) 0)) ∧
        (y ≠ 0 → o = true → y ≤ n - 1 → Completed s t .corrected y 1 (layoutOf n).m (flipBit (s.inBits n) y)) ∧
        (y ≠ 0 → (o = false ∨ n - 1 < y) → Completed s t .uncorrectable y o.toNat (layoutOf n).m [])) ∧
    (nMax s.cfg < n → ∃ t, exec .correct s = .next t ∧ Completed s t .range 0 0 0 []) ∧
    (n ≤ nMax s.cfg → wellFormedLength n = false → ∃ t, exec .correct s = .next t ∧ Completed s t .malformed 0 0 0 []) ∧
    (n ≤ nMax s.cfg → wellFormedLength n = true → s.operandWritten n = false →
      exec .correct s = .fault .unwrittenOperand)

/-- 43_correct.md R203: the diagnosis of a codeword with the bits of any set of distinct indices flipped, by the number of flips and
the XOR of the indices; a single flip at p >= 1 is undone by flipping p. -/
def Obligations.DiagnosisByErrorWeight : Prop :=
  ∀ (d : List Bool) (e : List Nat), e.Nodup → (∀ p ∈ e, p < (enc d).length) →
    let c' := e.foldl flipBit (enc d)
    let h := (enc d).length - 1
    let x := e.foldl (· ^^^ ·) 0
    let k := classify (synd c') (ovc c') h
    (e.length = 0 → k = .noErr) ∧
    (e = [0] → k = .globalErr) ∧
    (∀ p, e = [p] → p ≠ 0 → k = .single p ∧ flipBit c' p = enc d) ∧
    (e.length = 2 → k = .uncorr) ∧
    (e.length % 2 = 1 → 3 ≤ e.length →
      (x = 0 → k = .globalErr) ∧ (x ≠ 0 → x ≤ h → k = .single x) ∧ (h < x → k = .uncorr)) ∧
    (e.length % 2 = 0 → 4 ≤ e.length → (x = 0 → k = .noErr) ∧ (x ≠ 0 → k = .uncorr))

/-! The decoder -/

/-- 44_decode.md R221 (R220): DECODE computes s and o of IN[0..n-1] itself; on a success OUT holds the bits at dpos(1) to dpos(m) of
the corrected codeword, on UNCORRECTABLE nothing; RANGE, MALFORMED and the model fault as for SYNDROME. -/
def Obligations.DecodeCommand : Prop :=
  ∀ s : State,
    let n := s.arg.toNat
    let c := s.inBits n
    let y := synd c
    let m := (layoutOf n).m
    let data := fun c' : List Bool => (List.range m).map (fun j => bitAt c' (dpos (j + 1)))
    (n ≤ nMax s.cfg → wellFormedLength n = true → s.operandWritten n = true →
      ∃ t, exec .decode s = .next t ∧
        (y = 0 → ovc c = false → Completed s t .ok 0 0 m (data c)) ∧
        (y = 0 → ovc c = true → Completed s t .globalFix 0 1 m (data (flipBit c 0))) ∧
        (y ≠ 0 → ovc c = true → y ≤ n - 1 → Completed s t .corrected y 1 m (data (flipBit c y))) ∧
        (y ≠ 0 → (ovc c = false ∨ n - 1 < y) → Completed s t .uncorrectable y (ovc c).toNat m [])) ∧
    (nMax s.cfg < n → ∃ t, exec .decode s = .next t ∧ Completed s t .range 0 0 0 []) ∧
    (n ≤ nMax s.cfg → wellFormedLength n = false → ∃ t, exec .decode s = .next t ∧ Completed s t .malformed 0 0 0 []) ∧
    (n ≤ nMax s.cfg → wellFormedLength n = true → s.operandWritten n = false →
      exec .decode s = .fault .unwrittenOperand)

/-- 44_decode.md R222: DECODE on a codeword c reports what CORRECT reports with ARG2 = (ovc(c) << 31) OR synd(c), and when that is not
UNCORRECTABLE its output bit j is CORRECT's output bit at the position of rank j + 1. -/
def Obligations.DecodeIsSyndromeThenCorrect : Prop :=
  ∀ s : State, s.arg.toNat ≤ nMax s.cfg → wellFormedLength s.arg.toNat = true → s.operandWritten s.arg.toNat = true →
    ∃ t u, exec .decode s = .next t ∧
      exec .correct { s with
        arg2 := arg2Word (BitVec.ofNat 32 (synd (s.inBits s.arg.toNat))) (ovc (s.inBits s.arg.toNat)) } = .next u ∧
      t.result = u.result ∧ t.res0 = u.res0 ∧ t.res1 = u.res1 ∧ t.res2 = u.res2 ∧
      (t.result ≠ .uncorrectable →
        t.outLen.toNat = (layoutOf s.arg.toNat).m ∧
        ∀ j, j < (layoutOf s.arg.toNat).m → t.outBit j = u.outBit (dpos (j + 1)))

/-- 44_decode.md R223: ENCODE, then DECODE of the codeword it gave, returns OK and the data, for every data sequence the block
accepts. -/
def Obligations.RoundTrip : Prop :=
  ∀ s : State, s.arg.toNat ≤ dataMax s.cfg → s.operandWritten s.arg.toNat = true →
    ∃ t, exec .encode s = .next t ∧ ∀ u : State, Carries t u [] →
      ∃ v, exec .decode u = .next v ∧ v.result = .ok ∧ v.outLen = s.arg ∧
        ∀ j, j < s.arg.toNat → v.outBit j = s.inBit j

/-- 44_decode.md R224: with any one bit of the codeword flipped, DECODE returns the data, with GLOBAL_FIX for index 0 and CORRECTED
for any other. -/
def Obligations.SingleErrorCorrected : Prop :=
  ∀ s : State, s.arg.toNat ≤ dataMax s.cfg → s.operandWritten s.arg.toNat = true →
    ∃ t, exec .encode s = .next t ∧ ∀ (u : State) (p : Nat), p < t.outLen.toNat → Carries t u [p] →
      ∃ v, exec .decode u = .next v ∧ v.result = (if p = 0 then .globalFix else .corrected) ∧ v.outLen = s.arg ∧
        ∀ j, j < s.arg.toNat → v.outBit j = s.inBit j

/-- 44_decode.md R225: with any two distinct bits of the codeword flipped, DECODE reports UNCORRECTABLE with OUTLEN = 0. -/
def Obligations.DoubleErrorDetected : Prop :=
  ∀ s : State, s.arg.toNat ≤ dataMax s.cfg → s.operandWritten s.arg.toNat = true →
    ∃ t, exec .encode s = .next t ∧
      ∀ (u : State) (p q : Nat), p < t.outLen.toNat → q < t.outLen.toNat → p ≠ q → Carries t u [p, q] →
        ∃ v, exec .decode u = .next v ∧ v.result = .uncorrectable ∧ v.outLen = 0

/-! Results and errors -/

/-- 60_exceptions.md R254: a command fails with RANGE exactly when its operand is out of its range, with no result and OUT zero. -/
def Obligations.RangeExactly : Prop :=
  ∀ (i : Instr) (s : State),
    (OutOfRange i s → ∃ t, exec i s = .next t ∧ Completed s t .range 0 0 0 []) ∧
    ∀ t, exec i s = .next t → t.result = .range → OutOfRange i s

/-- 60_exceptions.md R255, 44_decode.md R226: SYNDROME, CORRECT and DECODE fail with MALFORMED exactly when n <= N_MAX and n is 0 or
one more than a power of two, whatever IN holds; no other command does. -/
def Obligations.MalformedExactly : Prop :=
  ∀ (i : Instr) (s : State),
    (Malformed i s → ∃ t, exec i s = .next t ∧ Completed s t .malformed 0 0 0 []) ∧
    ∀ t, exec i s = .next t → t.result = .malformed → Malformed i s

/-- 60_exceptions.md R258, 10_state.md R56: the model fault is raised exactly when a command reads an IN word never written, after
RANGE and MALFORMED; in every other case the command completes. -/
def Obligations.FaultsExactlyOnUnwrittenOperand : Prop :=
  ∀ (i : Instr) (s : State),
    (exec i s = .fault .unwrittenOperand ↔ Unwritten i s) ∧ (¬ Unwritten i s → ∃ t, exec i s = .next t)

/-- 60_exceptions.md R252: which codes a command never produces. -/
def Obligations.CodesOfCommands : Prop :=
  ∀ (i : Instr) (s t : State), exec i s = .next t →
    t.result ≠ .none ∧ t.result ≠ .illegalOp ∧
    (i ∈ [.layout, .pclass, .dpos, .encode] →
      t.result ≠ .corrected ∧ t.result ≠ .globalFix ∧ t.result ≠ .uncorrectable ∧ t.result ≠ .malformed) ∧
    (i = .syndrome → t.result ≠ .corrected ∧ t.result ≠ .globalFix ∧ t.result ≠ .uncorrectable)

/-- 60_exceptions.md R256: a failure leaves OUTLEN = 0 and all of OUT zero; RES0-RES2 are 0 unless the code is UNCORRECTABLE, which
CORRECT and DECODE alone produce, with s, o and m. -/
def Obligations.FailureLeavesNoOutput : Prop :=
  ∀ (i : Instr) (s t : State), exec i s = .next t → t.result ∈ [.uncorrectable, .malformed, .range, .illegalOp] →
    t.outLen = 0 ∧ (∀ j, j < nMax s.cfg → t.outBit j = false) ∧
    (t.result ≠ .uncorrectable → t.res0 = 0 ∧ t.res1 = 0 ∧ t.res2 = 0) ∧
    (t.result = .uncorrectable → t.res2.toNat = (layoutOf s.arg.toNat).m ∧
      ((i = .correct ∧ t.res0.toNat = s.argSyndrome ∧ t.res1.toNat = s.argOverall.toNat) ∨
        (i = .decode ∧ t.res0.toNat = synd (s.inBits s.arg.toNat) ∧ t.res1.toNat = (ovc (s.inBits s.arg.toNat)).toNat)))

/-- 10_state.md R52, 60_exceptions.md R262: every completion of a command writes all of OUT, its first OUTLEN bits the output and
the rest 0, sets DONE, clears BUSY, and leaves everything but the results unchanged. -/
def Obligations.CompletionFrame : Prop :=
  ∀ (i : Instr) (s t : State), exec i s = .next t →
    Kept s t ∧ t.busy = false ∧ t.done = true ∧ t.outValid = true ∧ t.outLen.toNat ≤ nMax s.cfg ∧
    ∀ j, t.outLen.toNat ≤ j → j < nMax s.cfg → t.outBit j = false

/-- 00_scope.md R16: what a command computes depends on its operand snapshot alone: from two states with the same operands it has
the same outcome, the same results and the same output. -/
def Obligations.ResultsDependOnOperandsOnly : Prop :=
  ∀ (i : Instr) (s s' t : State), SameOperands s s' → exec i s = .next t →
    ∃ t', exec i s' = .next t' ∧ t'.result = t.result ∧ t'.res0 = t.res0 ∧ t'.res1 = t.res1 ∧ t'.res2 = t.res2 ∧
      t'.outLen = t.outLen ∧ ∀ j, j < nMax s.cfg → t'.outBit j = t.outBit j

/-! The whole machine -/

/-- 10_state.md R34, R35: what turns BUSY and DONE on and off in one step. -/
def Obligations.HandshakeChanges : Prop :=
  ∀ s t : State, step s = .next t →
    (s.busy = false → t.busy = true → ∃ v, WriteNext s 0x00000 v) ∧
    (s.busy = true → t.busy = false → ResetNext s ∨ s.inflight = some 0) ∧
    (s.done = false → t.done = true → s.inflight = some 0) ∧
    (s.done = true → t.done = false →
      ResetNext s ∨ (∃ v, WriteNext s 0x00000 v) ∨ ∃ v, WriteNext s 0x00004 v ∧ v.getLsbD 1 = true)

/-- 10_state.md R36: OVR is set only by a write dropped while BUSY = 1, and cleared only by a write of 1 to bit 2 of STATUS or by
reset; neither issue nor completion changes it. -/
def Obligations.OverrunSticky : Prop :=
  ∀ s t : State, step s = .next t →
    (s.ovr = false → t.ovr = true → s.busy = true ∧ ∃ a v, WriteNext s a v ∧
      (a = 0x00000 ∨ a = 0x00008 ∨ a = 0x0000C ∨ ∃ j, j < bufferWords s.cfg ∧ a.toNat = 0x10000 + 4 * j)) ∧
    (s.ovr = true → t.ovr = false → ResetNext s ∨ ∃ v, WriteNext s 0x00004 v ∧ v.getLsbD 2 = true)

/-- 10_state.md R45, R46: no step, not even reset, changes DATA_MAX, nor so what CFG_MMAX and CFG_NMAX read. -/
def Obligations.ConfigurationConstant : Prop :=
  ∀ s t : State, step s = .next t →
    t.cfg = s.cfg ∧ (t.readCsr .cfgMmax).rdata = some (BitVec.ofNat 32 (dataMax s.cfg)) ∧
    (BitVec.ofNat 32 (dataMax s.cfg)).toNat = dataMax s.cfg ∧
    (t.readCsr .cfgNmax).rdata = some (BitVec.ofNat 32 (nMax s.cfg)) ∧ (BitVec.ofNat 32 (nMax s.cfg)).toNat = nMax s.cfg

/-- 60_exceptions.md R263: results stay readable until the next issue or reset: a step with no command in flight and no reset
leaves RES0-RES2, OUTLEN and every bit of OUT unchanged. -/
def Obligations.ResultsStayReadable : Prop :=
  ∀ s t : State, s.busy = false → ¬ ResetNext s → step s = .next t →
    t.res0 = s.res0 ∧ t.res1 = s.res1 ∧ t.res2 = s.res2 ∧ t.outLen = s.outLen ∧ t.outValid = s.outValid ∧
    (∀ a, 0x20000 ≤ a → Memory.readByte t.mem a = Memory.readByte s.mem a) ∧
    (t.result ≠ s.result → ∃ v, WriteNext s 0x00000 v)

/-- Every step keeps the invariant. What the invariant says of single bytes of the memory, and of OUT before the first
completion, which the spec leaves unspecified (10_state.md R51), is the model's choice (log entries 7, 11). -/
def Obligations.StepKeepsInvariant : Prop :=
  ∀ s t : State, s.Inv → step s = .next t → t.Inv
end

