-- ==== Sys2Proof/Laws/Arith.lean ====
section
/-! SUPPORT. The layout arithmetic said once: what the search of rcount answers, when a number is a power of two, and the
bounds a layout meets. -/

namespace Sys2Proof.Machine

theorem isPow2_iff (p : Nat) : isPow2 p = true ↔ ∃ i, p = 2 ^ i := by
  by_cases h : p = 0
  · subst h
    simp [isPow2, (Nat.two_pow_pos _).ne]
  · have h1 : 1 ≤ p := Nat.one_le_iff_ne_zero.2 h
    simp only [isPow2, Bool.and_eq_true, decide_eq_true_eq, h1, true_and]
    exact Nat.and_sub_one_eq_zero_iff_isPowerOfTwo h

theorem isPow2_two_pow (i : Nat) : isPow2 (2 ^ i) = true := (isPow2_iff _).2 ⟨i, rfl⟩

@[simp] theorem isPow2_zero : isPow2 0 = false := rfl

/-- The search stops at the first r at or above its start that passes, if there is one within its fuel. -/
theorem rcountFrom_spec (m : Nat) : ∀ fuel r, m + (r + fuel) + 1 ≤ 2 ^ (r + fuel) →
    (∀ r' < r, 2 ^ r' < m + r' + 1) →
    m + rcountFrom fuel m r + 1 ≤ 2 ^ rcountFrom fuel m r ∧ ∀ r' < rcountFrom fuel m r, 2 ^ r' < m + r' + 1
  | 0, r, hend, hlow => ⟨hend, hlow⟩
  | fuel + 1, r, hend, hlow => by
    unfold rcountFrom
    split
    · rename_i h
      refine rcountFrom_spec m fuel (r + 1) (by rwa [show r + 1 + fuel = r + (fuel + 1) by omega]) fun r' hr => ?_
      rcases Nat.lt_succ_iff_lt_or_eq.1 hr with hr | rfl
      · exact hlow r' hr
      · exact h
    · exact ⟨by omega, hlow⟩

theorem two_mul_add_two_le_two_pow (m : Nat) : m + (m + 1) + 1 ≤ 2 ^ (m + 1) := by
  induction m with
  | zero => simp
  | succ m ih => rw [Nat.pow_succ]; omega

/-- rcount(m) passes the test of 40_layout.md R131, and nothing below it does. -/
theorem rcount_spec (m : Nat) : m + rcount m + 1 ≤ 2 ^ rcount m ∧ ∀ r < rcount m, 2 ^ r < m + r + 1 :=
  rcountFrom_spec m (m + 1) 0 (by simpa using two_mul_add_two_le_two_pow m) (by simp)

theorem rcount_le {m r : Nat} (h : m + r + 1 ≤ 2 ^ r) : rcount m ≤ r :=
  Nat.le_of_not_lt fun hlt => absurd ((rcount_spec m).2 r hlt) (by omega)

/-- A number that passes the test, and whose predecessor fails it, is rcount(m). -/
theorem rcount_eq {m r : Nat} (h : m + r + 1 ≤ 2 ^ r) (hlow : ∀ r' < r, 2 ^ r' < m + r' + 1) : rcount m = r :=
  le_antisymm (rcount_le h) (Nat.le_of_not_lt fun hlt => absurd (rcount_spec m).1 (by have := hlow _ hlt; omega))

theorem rcount_mono {a b : Nat} (h : a ≤ b) : rcount a ≤ rcount b :=
  rcount_le (by have := (rcount_spec b).1; omega)

@[simp] theorem rcount_zero : rcount 0 = 0 := rfl

theorem rcount_pos {m : Nat} (h : m ≠ 0) : 2 ≤ rcount m := by
  have h1 := (rcount_spec m).1
  by_contra hlt
  have : rcount m = 0 ∨ rcount m = 1 := by omega
  rcases this with h0 | h0 <;> rw [h0] at h1 <;> omega

/-- The Hamming portion of a layout with data ends strictly between two powers of two (40_layout.md R133). -/
theorem hamming_bounds {m : Nat} (h : m ≠ 0) : 2 ^ (rcount m - 1) < m + rcount m ∧ m + rcount m < 2 ^ rcount m := by
  have h1 := rcount_spec m
  have h2 := rcount_pos h
  have h3 := h1.2 (rcount m - 1) (by omega)
  omega

theorem log2_hamming {m : Nat} (h : m ≠ 0) : Nat.log2 (m + rcount m) = rcount m - 1 := by
  have hb := hamming_bounds h
  have h2 := rcount_pos h
  refine (Nat.log2_eq_iff (by omega)).2 ⟨hb.1.le, ?_⟩
  rw [Nat.sub_add_cancel (by omega)]
  exact hb.2

/-- The parity count read off a codeword length is the one of its layout (40_layout.md R135). -/
theorem parityCount_hamming (m : Nat) : parityCount (m + rcount m) = rcount m := by
  by_cases h : m = 0
  · subst h; rfl
  · have h2 := rcount_pos h
    rw [parityCount, if_neg (by omega), log2_hamming h]
    omega

theorem lt_two_pow_parityCount (h : Nat) : h < 2 ^ parityCount h := by
  unfold parityCount
  split
  · subst_vars; simp
  · exact Nat.lt_log2_self

/-- The parameters fit the windows (00_scope.md R9). -/
theorem nMax_le (cfg : Config) : nMax cfg ≤ 524288 := by
  have h1 : dataMax cfg ≤ 524268 := Nat.le_of_lt_succ cfg.dataMax.isLt
  have h2 : rcount (dataMax cfg) ≤ 19 := rcount_le (by omega)
  simp only [nMax, hMax, rMax]
  omega

theorem bufferWords_le (cfg : Config) : bufferWords cfg ≤ 16384 := by
  have := nMax_le cfg
  simp only [bufferWords]
  omega

/-- Every bit of a buffer lies in one of its words. -/
theorem div_lt_bufferWords {cfg : Config} {i : Nat} (h : i < nMax cfg) : i / 32 < bufferWords cfg := by
  simp only [bufferWords]
  omega

/-- The codeword of data that fits is no longer than the buffers. -/
theorem layout_n_le {cfg : Config} {m : Nat} (h : m ≤ dataMax cfg) : (layout m).n ≤ nMax cfg := by
  have := rcount_mono h
  simp only [layout, nMax, hMax, rMax]
  omega

theorem layoutOf_m_le (n : Nat) : (layoutOf n).m ≤ n := by
  simp only [layoutOf]
  omega

end Sys2Proof.Machine
end

