-- ==== Sys2Proof/Laws/Bits.lean ====
section
/-! SUPPORT. Bit sequences read by index, and the XOR folds over them: what a flip of one bit does to a fold, and a fold over
two sequences that agree. -/

namespace Sys2Proof.Machine

@[simp] theorem bitAt_nil (i : Nat) : bitAt [] i = false := by simp [bitAt]

@[simp] theorem bitAt_cons_zero (b : Bool) (c : List Bool) : bitAt (b :: c) 0 = b := by simp [bitAt]

@[simp] theorem bitAt_cons_succ (b : Bool) (c : List Bool) (i : Nat) : bitAt (b :: c) (i + 1) = bitAt c i := by
  simp [bitAt]

theorem bitAt_eq_false {c : List Bool} {i : Nat} (h : c.length ≤ i) : bitAt c i = false := by
  simp [bitAt, List.getD_eq_getElem?_getD, List.getElem?_eq_none h]

theorem bitAt_set (c : List Bool) (p i : Nat) (b : Bool) :
    bitAt (c.set p b) i = if p = i ∧ p < c.length then b else bitAt c i := by
  simp only [bitAt, List.getD_eq_getElem?_getD, List.getElem?_set]
  by_cases h : p = i
  · subst h
    by_cases hp : p < c.length
    · simp [hp]
    · simp [hp]
  · simp [h]

theorem bitAt_map_range (f : Nat → Bool) (n i : Nat) :
    bitAt ((List.range n).map f) i = (decide (i < n) && f i) := by
  by_cases h : i < n <;> simp [bitAt, h]

theorem ext_bitAt {c d : List Bool} (hl : c.length = d.length) (h : ∀ i < c.length, bitAt c i = bitAt d i) : c = d := by
  refine List.ext_getElem hl fun i hc hd => ?_
  simpa [bitAt, hc, hd] using h i hc

/-- Two sequences of one length that agree where the fold selects have the same fold. -/
theorem xorFrom_congr {sel : Nat → Bool} : ∀ (i : Nat) {c d : List Bool}, c.length = d.length →
    (∀ j < c.length, sel (i + j) = true → bitAt c j = bitAt d j) → xorFrom sel i c = xorFrom sel i d
  | _, [], [], _, _ => rfl
  | i, a :: c, b :: d, hl, h => by
    have h0 := h 0 (by simp)
    have ht := xorFrom_congr (sel := sel) (i + 1) (c := c) (d := d) (by simpa using hl) fun j hj hs => by
      have := h (j + 1) (by simpa using hj) (by rwa [show i + (j + 1) = i + 1 + j by omega])
      simpa using this
    simp only [xorFrom, ht]
    congr 1
    by_cases hs : sel i = true
    · simpa [hs] using h0 hs
    · simp [hs]

theorem xorWhere_congr {sel : Nat → Bool} {c d : List Bool} (hl : c.length = d.length)
    (h : ∀ j < c.length, sel j = true → bitAt c j = bitAt d j) : xorWhere sel c = xorWhere sel d :=
  xorFrom_congr 0 hl (by simpa using h)

/-- Two selections that agree on the indices of the sequence give the same fold. -/
theorem xorFrom_sel_congr {sel sel' : Nat → Bool} : ∀ (i : Nat) {c : List Bool},
    (∀ j < c.length, bitAt c j = true → sel (i + j) = sel' (i + j)) → xorFrom sel i c = xorFrom sel' i c
  | _, [], _ => rfl
  | i, a :: c, h => by
    have h0 := h 0 (by simp)
    have ht := xorFrom_sel_congr (sel := sel) (sel' := sel') (i + 1) (c := c) fun j hj hb => by
      have := h (j + 1) (by simpa using hj) (by simpa using hb)
      rwa [show i + (j + 1) = i + 1 + j by omega] at this
    simp only [xorFrom, ht]
    congr 1
    cases a
    · simp
    · simpa using h0 rfl

theorem xorWhere_sel_congr {sel sel' : Nat → Bool} {c : List Bool}
    (h : ∀ j < c.length, bitAt c j = true → sel j = sel' j) : xorWhere sel c = xorWhere sel' c :=
  xorFrom_sel_congr 0 (by simpa using h)

/-- Replacing one bit changes a fold by the change of that bit, if the fold selects it. -/
theorem xorFrom_set (sel : Nat → Bool) : ∀ (i : Nat) (c : List Bool) (p : Nat) (b : Bool), p < c.length →
    xorFrom sel i (c.set p b) = (xorFrom sel i c ^^ (sel (i + p) && (bitAt c p ^^ b)))
  | _, [], _, _, h => absurd h (by simp)
  | i, a :: c, 0, b, _ => by
    simp only [List.set_cons_zero, xorFrom, Nat.add_zero, bitAt_cons_zero]
    cases sel i <;> cases a <;> cases b <;> simp
  | i, a :: c, p + 1, b, h => by
    have := xorFrom_set sel (i + 1) c p b (by simpa using h)
    simp only [List.set_cons_succ, xorFrom, this, bitAt_cons_succ, show i + (p + 1) = i + 1 + p by omega, Bool.xor_assoc]

theorem xorWhere_set (sel : Nat → Bool) {c : List Bool} {p : Nat} (b : Bool) (h : p < c.length) :
    xorWhere sel (c.set p b) = (xorWhere sel c ^^ (sel p && (bitAt c p ^^ b))) := by
  simpa [xorWhere] using xorFrom_set sel 0 c p b h

/-- A fold over two disjoint selections is the XOR of the folds over each. -/
theorem xorFrom_or (sel sel' : Nat → Bool) : ∀ (i : Nat) (c : List Bool), (∀ j, (sel j && sel' j) = false) →
    xorFrom (fun j => sel j || sel' j) i c = (xorFrom sel i c ^^ xorFrom sel' i c)
  | _, [], _ => rfl
  | i, a :: c, h => by
    simp only [xorFrom, xorFrom_or sel sel' (i + 1) c h]
    have := h i
    generalize xorFrom sel (i + 1) c = x
    generalize xorFrom sel' (i + 1) c = y
    revert this
    cases sel i <;> cases sel' i <;> cases a <;> cases x <;> cases y <;> simp

theorem xorWhere_or {sel sel' : Nat → Bool} (c : List Bool) (h : ∀ j, (sel j && sel' j) = false) :
    xorWhere (fun j => sel j || sel' j) c = (xorWhere sel c ^^ xorWhere sel' c) :=
  xorFrom_or sel sel' 0 c h

/-- The fold over one index is that element. -/
theorem xorFrom_eq (p : Nat) : ∀ (i : Nat) (c : List Bool),
    xorFrom (fun j => decide (j = p)) i c = (decide (i ≤ p) && bitAt c (p - i))
  | i, [] => by simp [xorFrom]
  | i, a :: c => by
    rw [xorFrom, xorFrom_eq p (i + 1) c]
    rcases Nat.lt_trichotomy i p with h | h | h
    · obtain ⟨k, rfl⟩ := Nat.exists_eq_add_of_lt h
      have h1 : i + k + 1 - i = k + 1 := by omega
      have h2 : i + k + 1 - (i + 1) = k := by omega
      have h3 : ¬ i = i + k + 1 := by omega
      have h4 : i ≤ i + k + 1 := by omega
      have h5 : i + 1 ≤ i + k + 1 := by omega
      rw [h1, h2]
      simp [h3, h4, h5]
    · subst h; simp
    · have h1 : ¬ i = p := by omega
      have h2 : ¬ i ≤ p := by omega
      have h3 : ¬ i + 1 ≤ p := by omega
      simp [h1, h2, h3]

theorem xorWhere_eq (p : Nat) (c : List Bool) : xorWhere (fun j => decide (j = p)) c = bitAt c p := by
  simpa [xorWhere] using xorFrom_eq p 0 c

end Sys2Proof.Machine
end

