-- ==== Sys2Proof/Laws/State.lean ====
section
/-! SUPPORT. What each update of State does to each field, by unfolding it once: later proofs rewrite with these and never
unfold an update. -/

namespace Sys2Proof.Machine

/-! `State.complete` -/

@[simp] theorem complete_cfg (s : State) (c : Completion) : (s.complete c).cfg = s.cfg := rfl
@[simp] theorem complete_cmd (s : State) (c : Completion) : (s.complete c).cmd = s.cmd := rfl
@[simp] theorem complete_arg (s : State) (c : Completion) : (s.complete c).arg = s.arg := rfl
@[simp] theorem complete_arg2 (s : State) (c : Completion) : (s.complete c).arg2 = s.arg2 := rfl
@[simp] theorem complete_res0 (s : State) (c : Completion) : (s.complete c).res0 = BitVec.ofNat 32 c.res0 := rfl
@[simp] theorem complete_res1 (s : State) (c : Completion) : (s.complete c).res1 = BitVec.ofNat 32 c.res1 := rfl
@[simp] theorem complete_res2 (s : State) (c : Completion) : (s.complete c).res2 = BitVec.ofNat 32 c.res2 := rfl
@[simp] theorem complete_outLen (s : State) (c : Completion) : (s.complete c).outLen = BitVec.ofNat 32 c.out.length := rfl
@[simp] theorem complete_done (s : State) (c : Completion) : (s.complete c).done = true := rfl
@[simp] theorem complete_ovr (s : State) (c : Completion) : (s.complete c).ovr = s.ovr := rfl
@[simp] theorem complete_result (s : State) (c : Completion) : (s.complete c).result = c.result := rfl
@[simp] theorem complete_inflight (s : State) (c : Completion) : (s.complete c).inflight = none := rfl
@[simp] theorem complete_mem (s : State) (c : Completion) : (s.complete c).mem = s.mem.writeOut (outputWord s.cfg c.out) (bufferWords s.cfg) := rfl
@[simp] theorem complete_outValid (s : State) (c : Completion) : (s.complete c).outValid = true := rfl
@[simp] theorem complete_rdata (s : State) (c : Completion) : (s.complete c).rdata = s.rdata := rfl
@[simp] theorem complete_host (s : State) (c : Completion) : (s.complete c).host = s.host := rfl
@[simp] theorem complete_draws (s : State) (c : Completion) : (s.complete c).draws = s.draws := rfl


/-! `State.issue` -/

@[simp] theorem issue_cfg (s : State) (v : Word) : (s.issue v).cfg = s.cfg := rfl
@[simp] theorem issue_cmd (s : State) (v : Word) : (s.issue v).cmd = v := rfl
@[simp] theorem issue_arg (s : State) (v : Word) : (s.issue v).arg = s.arg := rfl
@[simp] theorem issue_arg2 (s : State) (v : Word) : (s.issue v).arg2 = s.arg2 := rfl
@[simp] theorem issue_res0 (s : State) (v : Word) : (s.issue v).res0 = s.res0 := rfl
@[simp] theorem issue_res1 (s : State) (v : Word) : (s.issue v).res1 = s.res1 := rfl
@[simp] theorem issue_res2 (s : State) (v : Word) : (s.issue v).res2 = s.res2 := rfl
@[simp] theorem issue_outLen (s : State) (v : Word) : (s.issue v).outLen = s.outLen := rfl
@[simp] theorem issue_done (s : State) (v : Word) : (s.issue v).done = false := rfl
@[simp] theorem issue_ovr (s : State) (v : Word) : (s.issue v).ovr = s.ovr := rfl
@[simp] theorem issue_result (s : State) (v : Word) : (s.issue v).result = Result.none := rfl
@[simp] theorem issue_inflight (s : State) (v : Word) : (s.issue v).inflight = some (Config.drawnLatency s.draws) := rfl
@[simp] theorem issue_mem (s : State) (v : Word) : (s.issue v).mem = s.mem := rfl
@[simp] theorem issue_outValid (s : State) (v : Word) : (s.issue v).outValid = s.outValid := rfl
@[simp] theorem issue_rdata (s : State) (v : Word) : (s.issue v).rdata = s.rdata := rfl
@[simp] theorem issue_host (s : State) (v : Word) : (s.issue v).host = s.host := rfl
@[simp] theorem issue_draws (s : State) (v : Word) : (s.issue v).draws = s.draws + 1 := rfl


/-! `State.afterReset` -/

@[simp] theorem afterReset_cfg (s : State) : (s.afterReset).cfg = s.cfg := rfl
@[simp] theorem afterReset_cmd (s : State) : (s.afterReset).cmd = 0 := rfl
@[simp] theorem afterReset_arg (s : State) : (s.afterReset).arg = 0 := rfl
@[simp] theorem afterReset_arg2 (s : State) : (s.afterReset).arg2 = 0 := rfl
@[simp] theorem afterReset_res0 (s : State) : (s.afterReset).res0 = 0 := rfl
@[simp] theorem afterReset_res1 (s : State) : (s.afterReset).res1 = 0 := rfl
@[simp] theorem afterReset_res2 (s : State) : (s.afterReset).res2 = 0 := rfl
@[simp] theorem afterReset_outLen (s : State) : (s.afterReset).outLen = 0 := rfl
@[simp] theorem afterReset_done (s : State) : (s.afterReset).done = false := rfl
@[simp] theorem afterReset_ovr (s : State) : (s.afterReset).ovr = false := rfl
@[simp] theorem afterReset_result (s : State) : (s.afterReset).result = Result.none := rfl
@[simp] theorem afterReset_inflight (s : State) : (s.afterReset).inflight = none := rfl
@[simp] theorem afterReset_mem (s : State) : (s.afterReset).mem = [] := rfl
@[simp] theorem afterReset_outValid (s : State) : (s.afterReset).outValid = false := rfl
@[simp] theorem afterReset_rdata (s : State) : (s.afterReset).rdata = none := rfl
@[simp] theorem afterReset_host (s : State) : (s.afterReset).host = s.host := rfl
@[simp] theorem afterReset_draws (s : State) : (s.afterReset).draws = s.draws := rfl


/-! `State.drawRead` -/

@[simp] theorem drawRead_cfg (s : State) (v : Word) : (s.drawRead v).cfg = s.cfg := rfl
@[simp] theorem drawRead_cmd (s : State) (v : Word) : (s.drawRead v).cmd = s.cmd := rfl
@[simp] theorem drawRead_arg (s : State) (v : Word) : (s.drawRead v).arg = s.arg := rfl
@[simp] theorem drawRead_arg2 (s : State) (v : Word) : (s.drawRead v).arg2 = s.arg2 := rfl
@[simp] theorem drawRead_res0 (s : State) (v : Word) : (s.drawRead v).res0 = s.res0 := rfl
@[simp] theorem drawRead_res1 (s : State) (v : Word) : (s.drawRead v).res1 = s.res1 := rfl
@[simp] theorem drawRead_res2 (s : State) (v : Word) : (s.drawRead v).res2 = s.res2 := rfl
@[simp] theorem drawRead_outLen (s : State) (v : Word) : (s.drawRead v).outLen = s.outLen := rfl
@[simp] theorem drawRead_done (s : State) (v : Word) : (s.drawRead v).done = s.done := rfl
@[simp] theorem drawRead_ovr (s : State) (v : Word) : (s.drawRead v).ovr = s.ovr := rfl
@[simp] theorem drawRead_result (s : State) (v : Word) : (s.drawRead v).result = s.result := rfl
@[simp] theorem drawRead_inflight (s : State) (v : Word) : (s.drawRead v).inflight = s.inflight := rfl
@[simp] theorem drawRead_mem (s : State) (v : Word) : (s.drawRead v).mem = s.mem := rfl
@[simp] theorem drawRead_outValid (s : State) (v : Word) : (s.drawRead v).outValid = s.outValid := rfl
@[simp] theorem drawRead_rdata (s : State) (v : Word) : (s.drawRead v).rdata = some (Config.drawnWord s.draws &&& v) := rfl
@[simp] theorem drawRead_host (s : State) (v : Word) : (s.drawRead v).host = s.host := rfl
@[simp] theorem drawRead_draws (s : State) (v : Word) : (s.drawRead v).draws = s.draws + 1 := rfl


/-! `State.giveRead` -/

@[simp] theorem giveRead_cfg (s : State) (v : Word) : (s.giveRead v).cfg = s.cfg := rfl
@[simp] theorem giveRead_cmd (s : State) (v : Word) : (s.giveRead v).cmd = s.cmd := rfl
@[simp] theorem giveRead_arg (s : State) (v : Word) : (s.giveRead v).arg = s.arg := rfl
@[simp] theorem giveRead_arg2 (s : State) (v : Word) : (s.giveRead v).arg2 = s.arg2 := rfl
@[simp] theorem giveRead_res0 (s : State) (v : Word) : (s.giveRead v).res0 = s.res0 := rfl
@[simp] theorem giveRead_res1 (s : State) (v : Word) : (s.giveRead v).res1 = s.res1 := rfl
@[simp] theorem giveRead_res2 (s : State) (v : Word) : (s.giveRead v).res2 = s.res2 := rfl
@[simp] theorem giveRead_outLen (s : State) (v : Word) : (s.giveRead v).outLen = s.outLen := rfl
@[simp] theorem giveRead_done (s : State) (v : Word) : (s.giveRead v).done = s.done := rfl
@[simp] theorem giveRead_ovr (s : State) (v : Word) : (s.giveRead v).ovr = s.ovr := rfl
@[simp] theorem giveRead_result (s : State) (v : Word) : (s.giveRead v).result = s.result := rfl
@[simp] theorem giveRead_inflight (s : State) (v : Word) : (s.giveRead v).inflight = s.inflight := rfl
@[simp] theorem giveRead_mem (s : State) (v : Word) : (s.giveRead v).mem = s.mem := rfl
@[simp] theorem giveRead_outValid (s : State) (v : Word) : (s.giveRead v).outValid = s.outValid := rfl
@[simp] theorem giveRead_rdata (s : State) (v : Word) : (s.giveRead v).rdata = some v := rfl
@[simp] theorem giveRead_host (s : State) (v : Word) : (s.giveRead v).host = s.host := rfl
@[simp] theorem giveRead_draws (s : State) (v : Word) : (s.giveRead v).draws = s.draws := rfl


/-! `State.writeStatus` -/

@[simp] theorem writeStatus_cfg (s : State) (v : Word) : (s.writeStatus v).cfg = s.cfg := rfl
@[simp] theorem writeStatus_cmd (s : State) (v : Word) : (s.writeStatus v).cmd = s.cmd := rfl
@[simp] theorem writeStatus_arg (s : State) (v : Word) : (s.writeStatus v).arg = s.arg := rfl
@[simp] theorem writeStatus_arg2 (s : State) (v : Word) : (s.writeStatus v).arg2 = s.arg2 := rfl
@[simp] theorem writeStatus_res0 (s : State) (v : Word) : (s.writeStatus v).res0 = s.res0 := rfl
@[simp] theorem writeStatus_res1 (s : State) (v : Word) : (s.writeStatus v).res1 = s.res1 := rfl
@[simp] theorem writeStatus_res2 (s : State) (v : Word) : (s.writeStatus v).res2 = s.res2 := rfl
@[simp] theorem writeStatus_outLen (s : State) (v : Word) : (s.writeStatus v).outLen = s.outLen := rfl
@[simp] theorem writeStatus_done (s : State) (v : Word) : (s.writeStatus v).done = (s.done && !v.getLsbD 1) := rfl
@[simp] theorem writeStatus_ovr (s : State) (v : Word) : (s.writeStatus v).ovr = (s.ovr && !v.getLsbD 2) := rfl
@[simp] theorem writeStatus_result (s : State) (v : Word) : (s.writeStatus v).result = s.result := rfl
@[simp] theorem writeStatus_inflight (s : State) (v : Word) : (s.writeStatus v).inflight = s.inflight := rfl
@[simp] theorem writeStatus_mem (s : State) (v : Word) : (s.writeStatus v).mem = s.mem := rfl
@[simp] theorem writeStatus_outValid (s : State) (v : Word) : (s.writeStatus v).outValid = s.outValid := rfl
@[simp] theorem writeStatus_rdata (s : State) (v : Word) : (s.writeStatus v).rdata = s.rdata := rfl
@[simp] theorem writeStatus_host (s : State) (v : Word) : (s.writeStatus v).host = s.host := rfl
@[simp] theorem writeStatus_draws (s : State) (v : Word) : (s.writeStatus v).draws = s.draws := rfl


/-! `State.dropWrite` -/

@[simp] theorem dropWrite_cfg (s : State) : (s.dropWrite).cfg = s.cfg := rfl
@[simp] theorem dropWrite_cmd (s : State) : (s.dropWrite).cmd = s.cmd := rfl
@[simp] theorem dropWrite_arg (s : State) : (s.dropWrite).arg = s.arg := rfl
@[simp] theorem dropWrite_arg2 (s : State) : (s.dropWrite).arg2 = s.arg2 := rfl
@[simp] theorem dropWrite_res0 (s : State) : (s.dropWrite).res0 = s.res0 := rfl
@[simp] theorem dropWrite_res1 (s : State) : (s.dropWrite).res1 = s.res1 := rfl
@[simp] theorem dropWrite_res2 (s : State) : (s.dropWrite).res2 = s.res2 := rfl
@[simp] theorem dropWrite_outLen (s : State) : (s.dropWrite).outLen = s.outLen := rfl
@[simp] theorem dropWrite_done (s : State) : (s.dropWrite).done = s.done := rfl
@[simp] theorem dropWrite_ovr (s : State) : (s.dropWrite).ovr = true := rfl
@[simp] theorem dropWrite_result (s : State) : (s.dropWrite).result = s.result := rfl
@[simp] theorem dropWrite_inflight (s : State) : (s.dropWrite).inflight = s.inflight := rfl
@[simp] theorem dropWrite_mem (s : State) : (s.dropWrite).mem = s.mem := rfl
@[simp] theorem dropWrite_outValid (s : State) : (s.dropWrite).outValid = s.outValid := rfl
@[simp] theorem dropWrite_rdata (s : State) : (s.dropWrite).rdata = s.rdata := rfl
@[simp] theorem dropWrite_host (s : State) : (s.dropWrite).host = s.host := rfl
@[simp] theorem dropWrite_draws (s : State) : (s.dropWrite).draws = s.draws := rfl


/-! `State.storeIn` -/

@[simp] theorem storeIn_cfg (s : State) (j : Nat) (v : Word) : (s.storeIn j v).cfg = s.cfg := rfl
@[simp] theorem storeIn_cmd (s : State) (j : Nat) (v : Word) : (s.storeIn j v).cmd = s.cmd := rfl
@[simp] theorem storeIn_arg (s : State) (j : Nat) (v : Word) : (s.storeIn j v).arg = s.arg := rfl
@[simp] theorem storeIn_arg2 (s : State) (j : Nat) (v : Word) : (s.storeIn j v).arg2 = s.arg2 := rfl
@[simp] theorem storeIn_res0 (s : State) (j : Nat) (v : Word) : (s.storeIn j v).res0 = s.res0 := rfl
@[simp] theorem storeIn_res1 (s : State) (j : Nat) (v : Word) : (s.storeIn j v).res1 = s.res1 := rfl
@[simp] theorem storeIn_res2 (s : State) (j : Nat) (v : Word) : (s.storeIn j v).res2 = s.res2 := rfl
@[simp] theorem storeIn_outLen (s : State) (j : Nat) (v : Word) : (s.storeIn j v).outLen = s.outLen := rfl
@[simp] theorem storeIn_done (s : State) (j : Nat) (v : Word) : (s.storeIn j v).done = s.done := rfl
@[simp] theorem storeIn_ovr (s : State) (j : Nat) (v : Word) : (s.storeIn j v).ovr = s.ovr := rfl
@[simp] theorem storeIn_result (s : State) (j : Nat) (v : Word) : (s.storeIn j v).result = s.result := rfl
@[simp] theorem storeIn_inflight (s : State) (j : Nat) (v : Word) : (s.storeIn j v).inflight = s.inflight := rfl
@[simp] theorem storeIn_mem (s : State) (j : Nat) (v : Word) : (s.storeIn j v).mem = s.mem.writeWord (inBase + 4 * j) (v &&& liveMask s.cfg j) := rfl
@[simp] theorem storeIn_outValid (s : State) (j : Nat) (v : Word) : (s.storeIn j v).outValid = s.outValid := rfl
@[simp] theorem storeIn_rdata (s : State) (j : Nat) (v : Word) : (s.storeIn j v).rdata = s.rdata := rfl
@[simp] theorem storeIn_host (s : State) (j : Nat) (v : Word) : (s.storeIn j v).host = s.host := rfl
@[simp] theorem storeIn_draws (s : State) (j : Nat) (v : Word) : (s.storeIn j v).draws = s.draws := rfl


/-! `State.placeCommand` -/

@[simp] theorem placeCommand_cfg (s : State) (w : Word) : (s.placeCommand w).cfg = s.cfg := rfl
@[simp] theorem placeCommand_cmd (s : State) (w : Word) : (s.placeCommand w).cmd = w := rfl
@[simp] theorem placeCommand_arg (s : State) (w : Word) : (s.placeCommand w).arg = s.arg := rfl
@[simp] theorem placeCommand_arg2 (s : State) (w : Word) : (s.placeCommand w).arg2 = s.arg2 := rfl
@[simp] theorem placeCommand_res0 (s : State) (w : Word) : (s.placeCommand w).res0 = s.res0 := rfl
@[simp] theorem placeCommand_res1 (s : State) (w : Word) : (s.placeCommand w).res1 = s.res1 := rfl
@[simp] theorem placeCommand_res2 (s : State) (w : Word) : (s.placeCommand w).res2 = s.res2 := rfl
@[simp] theorem placeCommand_outLen (s : State) (w : Word) : (s.placeCommand w).outLen = s.outLen := rfl
@[simp] theorem placeCommand_done (s : State) (w : Word) : (s.placeCommand w).done = false := rfl
@[simp] theorem placeCommand_ovr (s : State) (w : Word) : (s.placeCommand w).ovr = s.ovr := rfl
@[simp] theorem placeCommand_result (s : State) (w : Word) : (s.placeCommand w).result = Result.none := rfl
@[simp] theorem placeCommand_inflight (s : State) (w : Word) : (s.placeCommand w).inflight = some 0 := rfl
@[simp] theorem placeCommand_mem (s : State) (w : Word) : (s.placeCommand w).mem = s.mem := rfl
@[simp] theorem placeCommand_outValid (s : State) (w : Word) : (s.placeCommand w).outValid = s.outValid := rfl
@[simp] theorem placeCommand_rdata (s : State) (w : Word) : (s.placeCommand w).rdata = s.rdata := rfl
@[simp] theorem placeCommand_host (s : State) (w : Word) : (s.placeCommand w).host = HostStep.drive idleCycle :: s.host := rfl
@[simp] theorem placeCommand_draws (s : State) (w : Word) : (s.placeCommand w).draws = s.draws := rfl


theorem raise_eq (s : State) (code : Result) : s.raise code = s.complete { result := code } := rfl

/-! BUSY is the in-flight field read as a flag (10_state.md R34). -/

@[simp] theorem busy_eq_false {s : State} : s.busy = false ↔ s.inflight = none := by
  simp [State.busy]

theorem busy_eq_true {s : State} : s.busy = true ↔ ∃ k, s.inflight = some k := by
  simp [State.busy, Option.isSome_iff_exists]

end Sys2Proof.Machine
end

