-- ==== Sys2Proof/Laws/Memory.lean ====
section
/-! SUPPORT. The memory laws: a read after a write, that a write leaves every other byte alone, and that every operation keeps
the canonical form. -/

namespace Sys2Proof.Machine

theorem lookup_put (m : Memory) (a b : Nat) (v : Byte) :
    Memory.lookup (m.put a v) b = if a = b then some v else Memory.lookup m b := by
  induction m with
  | nil => simp [Memory.put, Memory.lookup]
  | cons c m ih =>
    obtain ⟨k, w⟩ := c
    simp only [Memory.put]
    split
    · simp [Memory.lookup]
    · split
      · subst_vars
        by_cases h : k = b <;> simp [Memory.lookup, h]
      · simp only [Memory.lookup, ih]
        by_cases h : k = b
        · subst h; simp [*]
        · simp [h]

theorem lookup_remove (m : Memory) (a b : Nat) :
    Memory.lookup (m.remove a) b = if a = b then none else Memory.lookup m b := by
  induction m with
  | nil => simp [Memory.remove, Memory.lookup]
  | cons c m ih =>
    obtain ⟨k, w⟩ := c
    simp only [Memory.remove, List.filter_cons] at ih ⊢
    by_cases hk : k = a
    · subst hk
      simp only [ne_eq, not_true_eq_false, decide_false, Bool.false_eq_true, if_false, ih, Memory.lookup]
      split <;> simp_all
    · simp only [ne_eq, hk, not_false_eq_true, decide_true, if_true, Memory.lookup, ih]
      by_cases h : k = b
      · subst h; simp [Ne.symm hk]
      · simp [h]

/-- A byte read after a byte write (20_memory.md R76): the value written there, and every other byte as before. -/
theorem readByte_writeByte (m : Memory) (a b : Nat) (v : Byte) :
    (m.writeByte a v).readByte b = if a = b then some v else m.readByte b := by
  by_cases h : Memory.unlisted a = some v
  · rw [Memory.writeByte, if_pos h, Memory.readByte, Memory.readByte, lookup_remove]
    by_cases hb : a = b
    · subst hb; simpa using h
    · simp [hb]
  · rw [Memory.writeByte, if_neg h, Memory.readByte, Memory.readByte, lookup_put]
    by_cases hb : a = b <;> simp [hb]

theorem mem_put {m : Memory} {a : Nat} {v : Byte} {c : Host.Cell} (h : c ∈ m.put a v) : c = (a, v) ∨ c ∈ m := by
  induction m with
  | nil => simpa [Memory.put] using h
  | cons d m ih =>
    obtain ⟨k, w⟩ := d
    simp only [Memory.put] at h
    split at h
    · simpa using h
    · split at h
      · rcases List.mem_cons.1 h with h | h
        · exact .inl h
        · exact .inr (List.mem_cons_of_mem _ h)
      · rcases List.mem_cons.1 h with h | h
        · exact .inr (h ▸ List.mem_cons_self)
        · exact (ih h).imp_right (List.mem_cons_of_mem _)

theorem rising_put (m : Memory) (a : Nat) (v : Byte) (h : m.Pairwise (fun x y => x.1 < y.1)) :
    (m.put a v).Pairwise (fun x y => x.1 < y.1) := by
  induction m with
  | nil => simp [Memory.put]
  | cons c m ih =>
    obtain ⟨k, w⟩ := c
    have hm := List.pairwise_cons.1 h
    simp only [Memory.put]
    split
    · rename_i hlt
      refine List.pairwise_cons.2 ⟨fun d hd => ?_, h⟩
      rcases List.mem_cons.1 hd with rfl | hd
      · exact hlt
      · exact lt_trans hlt (hm.1 d hd)
    · split
      · rename_i heq
        exact List.pairwise_cons.2 ⟨fun d hd => heq ▸ hm.1 d hd, hm.2⟩
      · rename_i h1 h2
        refine List.pairwise_cons.2 ⟨fun d hd => ?_, ih hm.2⟩
        rcases mem_put hd with rfl | hd
        · simp only; omega
        · exact hm.1 d hd

/-- Writing a byte keeps the canonical form. -/
theorem wf_writeByte {m : Memory} (a : Nat) (v : Byte) (h : m.wf) : (m.writeByte a v).wf := by
  unfold Memory.writeByte
  split
  · exact ⟨h.1.filter _, fun c hc => h.2 c (List.mem_of_mem_filter hc)⟩
  · rename_i hne
    refine ⟨rising_put m a v h.1, fun c hc => ?_⟩
    rcases mem_put hc with rfl | hc
    · exact hne
    · exact h.2 c hc

/-- Writing a word keeps the canonical form. -/
theorem wf_writeWord {m : Memory} (a : Nat) (v : Word) (h : m.wf) : (m.writeWord a v).wf :=
  wf_writeByte _ _ (wf_writeByte _ _ (wf_writeByte _ _ (wf_writeByte _ _ h)))

/-- Writing the OUT window keeps the canonical form. -/
theorem wf_writeOut (f : Nat → Word) (k : Nat) {m : Memory} (h : m.wf) : (m.writeOut f k).wf := by
  induction k generalizing m with
  | zero => exact h
  | succ k ih => exact ih (wf_writeWord _ _ h)

/-- The empty memory is in canonical form. -/
theorem wf_nil : Memory.wf [] := by simp [Memory.wf]

/-- Every byte after a word write: byte t of the word at a + t for t below 4, every other byte as before. -/
theorem readByte_writeWord (m : Memory) (a b : Nat) (v : Word) :
    (m.writeWord a v).readByte b =
      if a ≤ b ∧ b < a + 4 then some (wordByte v (b - a)) else m.readByte b := by
  simp only [Memory.writeWord, readByte_writeByte]
  by_cases h : a ≤ b ∧ b < a + 4
  · obtain ⟨t, rfl⟩ := Nat.exists_eq_add_of_le h.1
    have : t < 4 := by omega
    interval_cases t <;> simp
  · rw [if_neg (by omega), if_neg (by omega), if_neg (by omega), if_neg (by omega), if_neg h]

@[simp] theorem wordOf_wordByte (v : Word) :
    wordOf (wordByte v 3) (wordByte v 2) (wordByte v 1) (wordByte v 0) = v := by
  refine BitVec.eq_of_getLsbD_eq fun i hi => ?_
  simp only [wordOf, wordByte, BitVec.getLsbD_append, BitVec.getLsbD_extractLsb']
  interval_cases i <;> simp

theorem readWord_writeWord_same (m : Memory) (a : Nat) (v : Word) : (m.writeWord a v).readWord a = some v := by
  simp only [Memory.readWord, readByte_writeWord]
  rw [if_pos (by omega), if_pos (by omega), if_pos (by omega), if_pos (by omega)]
  simp

theorem readWord_congr {m m' : Memory} {a : Nat} (h : ∀ t < 4, m'.readByte (a + t) = m.readByte (a + t)) :
    m'.readWord a = m.readWord a := by
  have h0 := h 0 (by omega)
  simp only [Nat.add_zero] at h0
  simp only [Memory.readWord, h0, h 1 (by omega), h 2 (by omega), h 3 (by omega)]

theorem readWord_writeWord_ne (m : Memory) (a b : Nat) (v : Word) (h : a + 4 ≤ b ∨ b + 4 ≤ a) :
    (m.writeWord a v).readWord b = m.readWord b := by
  refine readWord_congr fun t ht => ?_
  rw [readByte_writeWord, if_neg (by omega)]

/-- Writing the OUT window leaves every byte outside the words written alone. -/
theorem readByte_writeOut_outside (f : Nat → Word) (k : Nat) (m : Memory) (a : Nat)
    (h : a < outBase ∨ outBase + 4 * k ≤ a) : (m.writeOut f k).readByte a = m.readByte a := by
  induction k generalizing m with
  | zero => rfl
  | succ k ih =>
    rw [Memory.writeOut, ih _ (by omega), readByte_writeWord, if_neg (by omega)]

/-- Word j of the OUT window after it is written. -/
theorem readWord_writeOut (f : Nat → Word) (k : Nat) (m : Memory) (j : Nat) (h : j < k) :
    (m.writeOut f k).readWord (outBase + 4 * j) = some (f j) := by
  induction k generalizing m with
  | zero => omega
  | succ k ih =>
    rw [Memory.writeOut]
    by_cases hj : j = k
    · subst hj
      rw [← readWord_writeWord_same m (outBase + 4 * j) (f j)]
      refine readWord_congr fun t ht => ?_
      rw [readByte_writeOut_outside _ _ _ _ (by omega)]
    · exact ih _ (by omega)

/-- Below the OUT window a byte has a value exactly where it is listed. -/
theorem lookup_eq_readByte (m : Memory) {a : Nat} (h : a < outBase) : m.lookup a = m.readByte a := by
  have hu : Memory.unlisted a = none := if_neg (Nat.not_le.2 h)
  unfold Memory.readByte
  cases m.lookup a with
  | none => exact hu.symm
  | some b => rfl

/-- A write lists nothing but its own byte. -/
theorem mem_writeByte {m : Memory} {a : Nat} {v : Byte} {c : Host.Cell} (h : c ∈ m.writeByte a v) : c.1 = a ∨ c ∈ m := by
  unfold Memory.writeByte at h
  split at h
  · exact .inr (List.mem_of_mem_filter h)
  · rcases mem_put h with rfl | h
    · exact .inl rfl
    · exact .inr h

theorem mem_writeWord {m : Memory} {a : Nat} {v : Word} {c : Host.Cell} (h : c ∈ m.writeWord a v) :
    (a ≤ c.1 ∧ c.1 < a + 4) ∨ c ∈ m := by
  rcases mem_writeByte h with h | h
  · exact .inl (by omega)
  rcases mem_writeByte h with h | h
  · exact .inl (by omega)
  rcases mem_writeByte h with h | h
  · exact .inl (by omega)
  rcases mem_writeByte h with h | h
  · exact .inl (by omega)
  · exact .inr h

theorem mem_writeOut {f : Nat → Word} {k : Nat} {m : Memory} {c : Host.Cell} (h : c ∈ m.writeOut f k) :
    (outBase ≤ c.1 ∧ c.1 < outBase + 4 * k) ∨ c ∈ m := by
  induction k generalizing m with
  | zero => exact .inr h
  | succ k ih =>
    rcases ih h with h | h
    · exact .inl (by omega)
    · rcases mem_writeWord h with h | h
      · exact .inl (by omega)
      · exact .inr h

/-- Bit b of the word whose bits are given. -/
@[simp] theorem getLsbD_wordFrom (f : Nat → Bool) (b : Nat) :
    (wordFrom f).getLsbD b = (decide (b < 32) && f b) := by
  unfold wordFrom
  rw [BitVec.getLsbD_ofFnLE]
  split <;> simp [*]

end Sys2Proof.Machine
end

