-- ==== Sys2Proof/Laws/Exec.lean ====
section
/-! SUPPORT. What a completion leaves (60_exceptions.md R262), what the operands of a command are, and what a command can do at
all: every instruction either completes or raises the one model fault. -/

namespace Sys2Proof.Machine

/-! A completion and the two windows -/

@[simp] theorem getLsbD_outputWord (cfg : Config) (out : List Bool) (j b : Nat) :
    (outputWord cfg out j).getLsbD b =
      (decide (b < 32) && (decide (32 * j + b < nMax cfg) && bitAt out (32 * j + b))) := by
  simp [outputWord]

theorem complete_outWord (s : State) (c : Completion) {j : Nat} (h : j < bufferWords s.cfg) :
    (s.complete c).outWord j = outputWord s.cfg c.out j := by
  simp [State.outWord, readWord_writeOut _ _ _ _ h]

/-- OUT after a completion: the output sequence, then zeros (10_state.md R52). -/
theorem complete_outBit (s : State) (c : Completion) {i : Nat} (h : i < nMax s.cfg) :
    (s.complete c).outBit i = bitAt c.out i := by
  have h1 : i % 32 < 32 := Nat.mod_lt _ (by omega)
  have h2 : 32 * (i / 32) + i % 32 = i := Nat.div_add_mod i 32
  rw [State.outBit, complete_outWord s c (div_lt_bufferWords h), getLsbD_outputWord, h2]
  simp [h1, h]

/-- A completion leaves every byte outside OUT alone. -/
theorem complete_readByte (s : State) (c : Completion) {a : Nat}
    (h : a < outBase ∨ outBase + 4 * bufferWords s.cfg ≤ a) :
    (s.complete c).mem.readByte a = s.mem.readByte a := by
  simp [readByte_writeOut_outside _ _ _ _ h]

/-- A completion leaves IN alone (10_state.md R50). -/
theorem complete_inWord (s : State) (c : Completion) {j : Nat} (h : j < 16384) :
    (s.complete c).inWord j = s.inWord j := by
  refine readWord_congr fun t ht => complete_readByte s c ?_
  simp only [inBase, outBase]
  omega

/-! Operands -/

@[simp] theorem inBits_length (s : State) (n : Nat) : (s.inBits n).length = n := by simp [State.inBits]

theorem bitAt_inBits (s : State) (n i : Nat) : bitAt (s.inBits n) i = (decide (i < n) && s.inBit i) :=
  bitAt_map_range _ _ _

theorem operandWritten_iff (s : State) (n : Nat) :
    s.operandWritten n = true ↔ ∀ j, 32 * j < n → s.inWritten j = true := by
  simp only [State.operandWritten, List.all_eq_true, List.mem_range, wordsFor]
  exact ⟨fun h j hj => h j (by omega), fun h j hj => h j (by omega)⟩

@[simp] theorem operandWritten_zero (s : State) : s.operandWritten 0 = true := by simp [operandWritten_iff]

theorem dataOperand_range {s : State} (h : dataMax s.cfg < s.argNat) : s.dataOperand = .fails .range := by
  simp [State.dataOperand, h]

theorem dataOperand_unwritten {s : State} (h : s.argNat ≤ dataMax s.cfg) (hw : s.operandWritten s.argNat = false) :
    s.dataOperand = .unwritten := by
  simp [State.dataOperand, Nat.not_lt.2 h, hw]

theorem dataOperand_ready {s : State} (h : s.argNat ≤ dataMax s.cfg) (hw : s.operandWritten s.argNat = true) :
    s.dataOperand = .ready (s.inBits s.argNat) := by
  simp [State.dataOperand, Nat.not_lt.2 h, hw]

theorem codewordOperand_range {s : State} (h : nMax s.cfg < s.argNat) : s.codewordOperand = .fails .range := by
  simp [State.codewordOperand, h]

theorem codewordOperand_malformed {s : State} (h : s.argNat ≤ nMax s.cfg) (hf : wellFormedLength s.argNat = false) :
    s.codewordOperand = .fails .malformed := by
  simp [State.codewordOperand, Nat.not_lt.2 h, hf]

theorem codewordOperand_unwritten {s : State} (h : s.argNat ≤ nMax s.cfg) (hf : wellFormedLength s.argNat = true)
    (hw : s.operandWritten s.argNat = false) : s.codewordOperand = .unwritten := by
  simp [State.codewordOperand, Nat.not_lt.2 h, hf, hw]

theorem codewordOperand_ready {s : State} (h : s.argNat ≤ nMax s.cfg) (hf : wellFormedLength s.argNat = true)
    (hw : s.operandWritten s.argNat = true) : s.codewordOperand = .ready (s.inBits s.argNat) := by
  simp [State.codewordOperand, Nat.not_lt.2 h, hf, hw]

/-! The layout commands, by the outcome of their check -/

theorem exec_layout_range {s : State} (h : dataMax s.cfg < s.arg.toNat) : exec .layout s = .next (s.raise .range) :=
  if_pos h

theorem exec_layout_ok {s : State} (h : s.arg.toNat ≤ dataMax s.cfg) :
    exec .layout s = .next (s.complete (layoutReport (layout s.arg.toNat) [])) :=
  if_neg (Nat.not_lt.2 h)

theorem exec_pclass_range {s : State} (h : hMax s.cfg < s.arg.toNat) : exec .pclass s = .next (s.raise .range) :=
  if_pos h

theorem exec_pclass_ok {s : State} (h : s.arg.toNat ≤ hMax s.cfg) :
    exec .pclass s = .next (s.complete (classReport s.arg.toNat)) :=
  if_neg (Nat.not_lt.2 h)

theorem exec_dpos_range {s : State} (h : s.arg.toNat = 0 ∨ dataMax s.cfg < s.arg.toNat) :
    exec .dpos s = .next (s.raise .range) :=
  if_pos h

theorem exec_dpos_ok {s : State} (h0 : 1 ≤ s.arg.toNat) (h : s.arg.toNat ≤ dataMax s.cfg) :
    exec .dpos s = .next (s.complete { result := .ok, res0 := dpos s.arg.toNat }) :=
  if_neg fun hc => hc.elim (Nat.one_le_iff_ne_zero.1 h0) (Nat.not_lt.2 h)

/-! What a command can do -/

theorem finish_cases (s : State) (x : OperandCheck (List Bool)) (rule : List Bool → Completion) :
    s.finish x rule = .fault .unwrittenOperand ∧ x = .unwritten ∨
      ∃ c, s.finish x rule = .next (s.complete c) ∧
        ((∃ code, x = .fails code ∧ c = { result := code }) ∨ ∃ y, x = .ready y ∧ c = rule y) := by
  cases x with
  | fails code => exact .inr ⟨_, rfl, .inl ⟨code, rfl, rfl⟩⟩
  | unwritten => exact .inl ⟨rfl, rfl⟩
  | ready y => exact .inr ⟨_, rfl, .inr ⟨y, rfl, rfl⟩⟩

/-- Every command either completes or raises the one model fault; none refuses. -/
theorem exec_cases (i : Instr) (s : State) :
    exec i s = .fault .unwrittenOperand ∨ ∃ c, exec i s = .next (s.complete c) := by
  cases i with
  | layout => simp only [exec, execLayout]; split <;> exact .inr ⟨_, rfl⟩
  | pclass => simp only [exec, execPclass]; split <;> exact .inr ⟨_, rfl⟩
  | dpos => simp only [exec, execDpos]; split <;> exact .inr ⟨_, rfl⟩
  | encode => exact (finish_cases _ _ _).imp And.left fun ⟨c, h, _⟩ => ⟨c, h⟩
  | syndrome => exact (finish_cases _ _ _).imp And.left fun ⟨c, h, _⟩ => ⟨c, h⟩
  | correct => exact (finish_cases _ _ _).imp And.left fun ⟨c, h, _⟩ => ⟨c, h⟩
  | decode => exact (finish_cases _ _ _).imp And.left fun ⟨c, h, _⟩ => ⟨c, h⟩

/-- A command's next state is a completion of the state it ran in. -/
theorem exec_next {i : Instr} {s t : State} (h : exec i s = .next t) : ∃ c, t = s.complete c := by
  rcases exec_cases i s with hf | ⟨c, hc⟩
  · rw [hf] at h; cases h
  · rw [hc] at h; cases h; exact ⟨c, rfl⟩

end Sys2Proof.Machine
end

