-- ==== Sys2Proof/Laws/Targets.lean ====
section
/-! SUPPORT. What an offset names (20_memory.md R72, R76, R78), and what kind of cycle comes next. -/

namespace Sys2Proof.Machine

/-! The windows of the address map (20_memory.md R72, R76, R78) -/

theorem target_inWord {a : Offset} {j : Nat} (hj : j < 16384) (h : a.toNat = inBase + 4 * j) : target a = .inWord j := by
  simp only [inBase] at h
  simp only [target, targetAt, h, inBase, outBase]
  rw [if_neg (by omega), if_neg (by omega), if_pos (by omega)]
  congr 1
  omega

theorem target_outWord {a : Offset} {j : Nat} (hj : j < 16384) (h : a.toNat = outBase + 4 * j) : target a = .outWord j := by
  simp only [outBase] at h
  simp only [target, targetAt, h, inBase, outBase]
  rw [if_neg (by omega), if_neg (by omega), if_neg (by omega), if_pos (by omega)]
  congr 1
  omega

theorem target_reserved {a : Offset} (h : 0x28 ≤ a.toNat ∧ a.toNat < inBase ∨ 0x30000 ≤ a.toNat) : target a = .reserved := by
  have hb : inBase = 0x10000 := rfl
  have ho : outBase = 0x20000 := rfl
  unfold target targetAt
  rcases h with h | h
  · rw [if_neg (by omega), if_pos (by omega)]
  · rw [if_neg (by omega), if_neg (by omega), if_neg (by omega), if_neg (by omega)]

theorem target_csr {a : Offset} (h : a.toNat < 0x28) : target a = .csr (csrAt (a.toNat / 4)) := by
  unfold target targetAt
  rw [if_pos h]

/-- What an aligned offset can name: a register, a word of a window, or nothing (20_memory.md R72). -/
theorem target_cases {a : Offset} (ha : aligned a = true) :
    (a.toNat < 0x28 ∧ target a = .csr (csrAt (a.toNat / 4))) ∨
    (∃ j, j < 16384 ∧ a.toNat = inBase + 4 * j ∧ target a = .inWord j) ∨
    (∃ j, j < 16384 ∧ a.toNat = outBase + 4 * j ∧ target a = .outWord j) ∨
    ((0x28 ≤ a.toNat ∧ a.toNat < inBase ∨ 0x30000 ≤ a.toNat) ∧ target a = .reserved) := by
  have hb : inBase = 0x10000 := rfl
  have ho : outBase = 0x20000 := rfl
  have h4 : a.toNat % 4 = 0 := by simpa [aligned] using ha
  by_cases h1 : a.toNat < 0x28
  · exact .inl ⟨h1, target_csr h1⟩
  by_cases h2 : 0x28 ≤ a.toNat ∧ a.toNat < inBase ∨ 0x30000 ≤ a.toNat
  · exact .inr (.inr (.inr ⟨h2, target_reserved h2⟩))
  by_cases h3 : a.toNat < outBase
  · have hj : a.toNat = inBase + 4 * ((a.toNat - inBase) / 4) := by omega
    exact .inr (.inl ⟨_, by omega, hj, target_inWord (by omega) hj⟩)
  · have hj : a.toNat = outBase + 4 * ((a.toNat - outBase) / 4) := by omega
    exact .inr (.inr (.inl ⟨_, by omega, hj, target_outWord (by omega) hj⟩))

theorem aligned_inWord {a : Offset} {j : Nat} (h : a.toNat = inBase + 4 * j) : aligned a = true := by
  simp only [inBase] at h
  simp only [aligned, h, decide_eq_true_eq]
  omega

theorem aligned_outWord {a : Offset} {j : Nat} (h : a.toNat = outBase + 4 * j) : aligned a = true := by
  simp only [outBase] at h
  simp only [aligned, h, decide_eq_true_eq]
  omega

/-- An aligned offset that names a register is that register's offset. -/
theorem eq_csrOffset {a : Offset} {r : Csr} (ha : aligned a = true) (h : target a = .csr r) : a = csrOffset r := by
  have h4 : a.toNat % 4 = 0 := by simpa [aligned] using ha
  rcases target_cases ha with ⟨hlt, ht⟩ | ⟨j, _, _, ht⟩ | ⟨j, _, _, ht⟩ | ⟨_, ht⟩ <;> rw [ht] at h
  · obtain ⟨q, hq⟩ : ∃ q, a.toNat = 4 * q := ⟨a.toNat / 4, by omega⟩
    have hq10 : q < 10 := by omega
    simp only [hq, Nat.mul_div_cancel_left q (by decide : 0 < 4), Target.csr.injEq] at h
    subst h
    apply BitVec.eq_of_toNat_eq
    rw [hq]
    interval_cases q <;> rfl
  all_goals cases h

/-- An aligned offset that names an IN word is that word's offset. -/
theorem eq_inOffset {a : Offset} {j : Nat} (ha : aligned a = true) (h : target a = .inWord j) : a.toNat = inBase + 4 * j := by
  rcases target_cases ha with ⟨_, ht⟩ | ⟨k, _, hk, ht⟩ | ⟨k, _, _, ht⟩ | ⟨_, ht⟩ <;> rw [ht] at h <;> cases h
  exact hk

/-! Reset and the kinds of cycle -/

theorem resetDriven_of_resetNext {s : State} (h : ResetNext s) : ∃ p rest, resetDriven s.host = some (p, rest) := by
  obtain ⟨p, rest, hh, hp⟩ := h
  exact ⟨p, rest, by simp [hh, resetDriven, hp]⟩

theorem resetNext_of_resetDriven {s : State} {p : PortIn} {rest : List HostStep} (h : resetDriven s.host = some (p, rest)) :
    s.host = .drive p :: rest ∧ p.rst = true := by
  unfold resetDriven at h
  split at h
  · rename_i hh
    split at h
    · cases h; exact ⟨hh, by assumption⟩
    · cases h
  · cases h
  · cases h

theorem resetDriven_eq_none {s : State} (h : ¬ ResetNext s) : resetDriven s.host = none := by
  cases hr : resetDriven s.host with
  | none => rfl
  | some x => exact absurd ⟨x.1, x.2, resetNext_of_resetDriven hr⟩ h

theorem not_resetNext_of_resetDriven {s : State} (h : resetDriven s.host = none) : ¬ ResetNext s := fun hn => by
  obtain ⟨p, rest, hr⟩ := resetDriven_of_resetNext hn
  rw [h] at hr
  cases hr

theorem not_resetNext_of_writeNext {s : State} {a : Offset} {v : Word} (h : WriteNext s a v) : ¬ ResetNext s := by
  obtain ⟨p, rest, hh, hp, _⟩ := h
  rintro ⟨p', rest', hh', hp'⟩
  rw [hh] at hh'
  cases hh'
  rw [hp] at hp'
  cases hp'

end Sys2Proof.Machine
end

