-- ==== Sys2Proof/Laws/Step.lean ====
section
/-! SUPPORT. What one cycle can do, said once: the host's part changes one of a few things, and a step is a reset, or the
host's part followed by nothing, a cycle of waiting, or a completion. -/

namespace Sys2Proof.Machine

/-- What the host's part of a cycle without reset can do to the block, and the write that does it: nothing but the port, the
queue and a draw; a flag cleared; a write dropped; a register or IN word written while idle; an issue while idle. -/
inductive HostEffect (s : State) : State → Prop where
  | quiet (rdata host draws) : HostEffect s { s with rdata := rdata, host := host, draws := draws }
  | status (v : Word) (host) (write : WriteNext s 0x00004 v) :
      HostEffect s { s.writeStatus v with rdata := none, host := host }
  | dropped (a : Offset) (v : Word) (host) (busy : s.busy = true) (write : WriteNext s a v)
      (names : a = 0x00000 ∨ a = 0x00008 ∨ a = 0x0000C ∨ ∃ j, j < bufferWords s.cfg ∧ a.toNat = 0x10000 + 4 * j) :
      HostEffect s { s.dropWrite with rdata := none, host := host }
  | arg (v : Word) (host) (idle : s.busy = false) (write : WriteNext s 0x00008 v) :
      HostEffect s { s with arg := v, rdata := none, host := host }
  | arg2 (v : Word) (host) (idle : s.busy = false) (write : WriteNext s 0x0000C v) :
      HostEffect s { s with arg2 := v, rdata := none, host := host }
  | issue (v : Word) (host) (idle : s.busy = false) (write : WriteNext s 0x00000 v) :
      HostEffect s { s.issue v with rdata := none, host := host }
  | store (a : Offset) (j : Nat) (v : Word) (host) (idle : s.busy = false) (live : j < bufferWords s.cfg)
      (write : WriteNext s a v) (names : a.toNat = 0x10000 + 4 * j) :
      HostEffect s { s.storeIn j v with rdata := none, host := host }

/-- A read changes the read port and the count of draws only (20_memory.md R82). -/
theorem busRead_quiet (s : State) (a : Offset) : ∃ r d, s.busRead a = { s with rdata := r, draws := d } := by
  have hg : ∀ v, ∃ r d, s.giveRead v = { s with rdata := r, draws := d } := fun v => ⟨_, _, rfl⟩
  have hd : ∀ v, ∃ r d, s.drawRead v = { s with rdata := r, draws := d } := fun v => ⟨_, _, rfl⟩
  have hr : ∀ v, ∃ r d, s.readResult v = { s with rdata := r, draws := d } := fun v => by
    unfold State.readResult; split
    · exact hd _
    · exact hg _
  unfold State.busRead
  split
  · rename_i r _
    cases r <;> first | exact hg _ | exact hr _
  · unfold State.readIn; split
    · exact hg _
    · split
      · exact hg _
      · exact hd _
  · unfold State.readOut; split
    · exact hg _
    · split
      · exact hd _
      · exact hg _
  · exact hg _

theorem busWrite_effect {s : State} {a : Offset} {v : Word} (rest : List HostStep) (ha : aligned a = true)
    (hw : WriteNext s a v) : HostEffect s (({ s with host := rest, rdata := none } : State).busWrite a v) := by
  have hq : HostEffect s { s with host := rest, rdata := none } := .quiet none rest s.draws
  have hi : ∀ t, (s.busy = false → HostEffect s t) →
      (a = 0x00000 ∨ a = 0x00008 ∨ a = 0x0000C ∨ ∃ j, j < bufferWords s.cfg ∧ a.toNat = 0x10000 + 4 * j) →
      HostEffect s (({ s with host := rest, rdata := none } : State).writeIfIdle t) := by
    intro t ht hn
    unfold State.writeIfIdle
    split
    · rename_i h; exact .dropped a v rest h hw hn
    · rename_i h; exact ht (by simpa [State.busy] using h)
  unfold State.busWrite
  split
  · rename_i r hr
    have hoff := eq_csrOffset ha hr
    have hw' : WriteNext s (csrOffset r) v := hoff ▸ hw
    cases r with
    | cmd => exact hi _ (fun h => .issue v rest h hw') (.inl hoff)
    | status => exact .status v rest hw'
    | arg => exact hi _ (fun h => .arg v rest h hw') (.inr (.inl hoff))
    | arg2 => exact hi _ (fun h => .arg2 v rest h hw') (.inr (.inr (.inl hoff)))
    | res0 => exact hq
    | res1 => exact hq
    | res2 => exact hq
    | outLen => exact hq
    | cfgMmax => exact hq
    | cfgNmax => exact hq
  · rename_i j hr
    have hoff := eq_inOffset ha hr
    unfold State.writeIn
    split
    · exact hq
    · rename_i hj
      have hlive := Nat.lt_of_not_le hj
      exact hi _ (fun h => .store a j v rest h hlive hw hoff) (.inr (.inr (.inr ⟨j, hlive, hoff⟩)))
  · exact hq
  · exact hq

/-- The host's part of a cycle: one of the effects, or a refusal of an access the spec gives no meaning. -/
theorem hostPart_effect {s t : State} (hr : ¬ ResetNext s) (h : s.hostPart = .next t) : HostEffect s t := by
  unfold State.hostPart at h
  split at h
  · cases h; exact .quiet none s.host s.draws
  · rename_i rest _
    cases h
    obtain ⟨r, d, hrd⟩ := busRead_quiet s (csrOffset .status)
    simp only [State.pollStatus, hrd]
    exact .quiet r _ d
  · rename_i p rest hh
    have hrst : p.rst = false := by
      by_contra hc
      exact hr ⟨p, rest, hh, by simpa using hc⟩
    unfold State.access at h
    split at h
    · cases h
    · rename_i hboth
      split at h
      · cases h
      · rename_i hal
        split at h
        · cases h
          obtain ⟨r, d, hrd⟩ := busRead_quiet { s with host := rest } p.addr
          rw [hrd]; exact .quiet r rest d
        · rename_i hre
          split at h
          · rename_i hwe
            cases h
            have hre' : p.re = false := by simpa using hre
            have ha : aligned p.addr = true := by simpa [hwe] using hal
            exact busWrite_effect rest ha ⟨p, rest, hh, hrst, hwe, hre', rfl, rfl⟩
          · cases h; exact .quiet none rest s.draws

/-- While a command is in flight the host's part leaves CMD, ARG, ARG2 and the buffers alone (20_memory.md R80). -/
theorem hostEffect_busy {s u : State} (h : HostEffect s u) (hb : s.busy = true) :
    u.cfg = s.cfg ∧ u.cmd = s.cmd ∧ u.arg = s.arg ∧ u.arg2 = s.arg2 ∧ u.mem = s.mem := by
  cases h <;> simp_all

theorem hostPart_not_fault {s : State} {f : Fault} : s.hostPart ≠ .fault f := by
  unfold State.hostPart
  split
  · simp
  · simp
  · unfold State.access
    split
    · simp
    · split
      · simp
      · split
        · simp
        · split <;> simp

/-- The completion step completes or raises the one model fault. -/
theorem completionStep_cases (s : State) :
    s.completionStep = .fault .unwrittenOperand ∨ ∃ c, s.completionStep = .next (s.complete c) := by
  unfold State.completionStep
  split
  · exact exec_cases _ _
  · exact .inr ⟨_, rfl⟩

/-- What a step that answers a next state has done. -/
theorem step_cases {s t : State} (h : step s = .next t) :
    (∃ p rest, s.host = .drive p :: rest ∧ p.rst = true ∧ t = s.resetPart p rest) ∨
    ∃ u, ¬ ResetNext s ∧ s.hostPart = .next u ∧ HostEffect s u ∧
      ((s.inflight = none ∧ t = u) ∨
       (∃ k, s.inflight = some (k + 1) ∧ t = { u with inflight := some k }) ∨
       (s.inflight = some 0 ∧ u.completionStep = .next t ∧ ∃ c, t = u.complete c)) := by
  unfold step clockCycle at h
  split at h
  · rename_i p rest hr
    cases h
    exact .inl ⟨p, rest, (resetNext_of_resetDriven hr).1, (resetNext_of_resetDriven hr).2, rfl⟩
  · rename_i hr
    split at h
    · rename_i u hu
      have hnr := not_resetNext_of_resetDriven hr
      refine .inr ⟨u, hnr, hu, hostPart_effect hnr hu, ?_⟩
      cases hf : s.inflight with
      | none => rw [hf] at h; cases h; exact .inl ⟨rfl, rfl⟩
      | some k =>
        cases k with
        | zero =>
          rw [hf] at h
          refine .inr (.inr ⟨rfl, h, ?_⟩)
          rcases completionStep_cases u with hc | ⟨c, hc⟩
          · rw [State.blockPart, hc] at h; cases h
          · rw [State.blockPart, hc] at h; cases h; exact ⟨c, rfl⟩
        | succ k => rw [hf] at h; cases h; exact .inr (.inl ⟨k, rfl, rfl⟩)
    · cases h
    · cases h

end Sys2Proof.Machine
end

