-- ==== Sys2Proof/Laws/Completed.lean ====
section
/-! SUPPORT. A completion leaves what claims say a completion leaves, when its numbers fit their registers (00_scope.md R10). -/

namespace Sys2Proof.Machine

theorem kept_complete (s : State) (c : Completion) : Kept s (s.complete c) where
  cfg := rfl
  cmd := rfl
  arg := rfl
  arg2 := rfl
  ovr := rfl
  rdata := rfl
  host := rfl
  draws := rfl
  bytes := fun _ h => complete_readByte s c h

theorem completed_complete (s : State) (c : Completion) (h0 : c.res0 < 2 ^ 32) (h1 : c.res1 < 2 ^ 32)
    (h2 : c.res2 < 2 ^ 32) (h3 : c.out.length < 2 ^ 32) :
    Completed s (s.complete c) c.result c.res0 c.res1 c.res2 c.out where
  result := rfl
  res0 := by rw [complete_res0, BitVec.toNat_ofNat, Nat.mod_eq_of_lt h0]
  res1 := by rw [complete_res1, BitVec.toNat_ofNat, Nat.mod_eq_of_lt h1]
  res2 := by rw [complete_res2, BitVec.toNat_ofNat, Nat.mod_eq_of_lt h2]
  outLen := by rw [complete_outLen, BitVec.toNat_ofNat, Nat.mod_eq_of_lt h3]
  out := fun _ h => complete_outBit s c h
  idle := rfl
  done := rfl
  outValid := rfl
  kept := kept_complete s c

theorem completed_raise (s : State) (code : Result) : Completed s (s.raise code) code 0 0 0 [] :=
  completed_complete s { result := code } (by simp) (by simp) (by simp) (by simp)

/-- The numbers a layout or a codeword gives fit a register. -/
theorem nMax_lt (cfg : Config) : nMax cfg < 2 ^ 32 := Nat.lt_of_le_of_lt (nMax_le cfg) (by decide)

/-! A command looks at its operands only (00_scope.md R16) -/

theorem SameOperands.inBit {s t : State} (h : SameOperands s t) {i : Nat} (hi : i < nMax s.cfg) : t.inBit i = s.inBit i := by
  rw [State.inBit, State.inBit, h.words _ (div_lt_bufferWords hi)]

theorem SameOperands.inBits {s t : State} (h : SameOperands s t) {n : Nat} (hn : n ≤ nMax s.cfg) :
    t.inBits n = s.inBits n :=
  List.map_congr_left fun _ hi => h.inBit (Nat.lt_of_lt_of_le (List.mem_range.1 hi) hn)

theorem SameOperands.operandWritten {s t : State} (h : SameOperands s t) {n : Nat} (hn : n ≤ nMax s.cfg) :
    t.operandWritten n = s.operandWritten n := by
  have hw : ∀ j, 32 * j < n → t.inWritten j = s.inWritten j := fun j hj => by
    rw [State.inWritten, State.inWritten, h.words j (by simp only [bufferWords]; omega)]
  rw [Bool.eq_iff_iff, operandWritten_iff, operandWritten_iff]
  exact ⟨fun hs j hj => hw j hj ▸ hs j hj, fun hs j hj => hw j hj ▸ hs j hj⟩

theorem dataMax_le_nMax (cfg : Config) : dataMax cfg ≤ nMax cfg := by
  simp only [nMax, hMax]
  omega

theorem SameOperands.dataOperand {s t : State} (h : SameOperands s t) : t.dataOperand = s.dataOperand := by
  have ha : t.argNat = s.argNat := by rw [State.argNat, State.argNat, h.arg]
  by_cases hn : dataMax s.cfg < s.argNat
  · rw [dataOperand_range hn, dataOperand_range (by rwa [h.cfg, ha])]
  · have hle : s.argNat ≤ nMax s.cfg := le_trans (Nat.le_of_not_lt hn) (dataMax_le_nMax _)
    simp only [State.dataOperand, h.cfg, ha, h.operandWritten hle, h.inBits hle]

theorem SameOperands.codewordOperand {s t : State} (h : SameOperands s t) : t.codewordOperand = s.codewordOperand := by
  have ha : t.argNat = s.argNat := by rw [State.argNat, State.argNat, h.arg]
  by_cases hn : nMax s.cfg < s.argNat
  · rw [codewordOperand_range hn, codewordOperand_range (by rwa [h.cfg, ha])]
  · have hle : s.argNat ≤ nMax s.cfg := Nat.le_of_not_lt hn
    simp only [State.codewordOperand, h.cfg, ha, h.operandWritten hle, h.inBits hle]

/-- From two states with the same operands a command raises the model fault in both, or completes in both with one completion. -/
theorem exec_congr (i : Instr) {s t : State} (h : SameOperands s t) :
    (exec i s = .fault .unwrittenOperand ∧ exec i t = .fault .unwrittenOperand) ∨
      ∃ c, exec i s = .next (s.complete c) ∧ exec i t = .next (t.complete c) := by
  have ha : t.argNat = s.argNat := by rw [State.argNat, State.argNat, h.arg]
  have hf : ∀ (x : OperandCheck (List Bool)) (rule : List Bool → Completion),
      (s.finish x rule = .fault .unwrittenOperand ∧ t.finish x rule = .fault .unwrittenOperand) ∨
        ∃ c, s.finish x rule = .next (s.complete c) ∧ t.finish x rule = .next (t.complete c) := fun x rule => by
    cases x with
    | fails code => exact .inr ⟨_, rfl, rfl⟩
    | unwritten => exact .inl ⟨rfl, rfl⟩
    | ready y => exact .inr ⟨_, rfl, rfl⟩
  cases i with
  | layout =>
    simp only [exec, execLayout, h.cfg, ha]
    split <;> exact .inr ⟨_, rfl, rfl⟩
  | pclass =>
    simp only [exec, execPclass, h.cfg, ha]
    split <;> exact .inr ⟨_, rfl, rfl⟩
  | dpos =>
    simp only [exec, execDpos, h.cfg, ha]
    split <;> exact .inr ⟨_, rfl, rfl⟩
  | encode =>
    simp only [exec, execEncode, h.dataOperand]
    exact hf _ _
  | syndrome =>
    simp only [exec, execSyndrome, h.codewordOperand]
    exact hf _ _
  | correct =>
    simp only [exec, execCorrect, h.codewordOperand, State.argSyndrome, State.argOverall, h.arg2]
    exact hf _ _
  | decode =>
    simp only [exec, execDecode, h.codewordOperand]
    exact hf _ _

/-- The completion step too looks at CMD and the operands only. -/
theorem completionStep_congr {s t : State} (hc : t.cmd = s.cmd) (h : SameOperands s t) :
    (s.completionStep = .fault .unwrittenOperand ∧ t.completionStep = .fault .unwrittenOperand) ∨
      ∃ c, s.completionStep = .next (s.complete c) ∧ t.completionStep = .next (t.complete c) := by
  simp only [State.completionStep, hc]
  split
  · exact exec_congr _ h
  · exact .inr ⟨_, rfl, rfl⟩

/-- One cycle, then the others. -/
theorem cycles_succ (k : Nat) (s : State) :
    cycles (k + 1) s = (match step s with
      | .next t => cycles k t
      | .fault f => .fault f
      | .refused r => .refused r) := rfl

@[simp] theorem cycles_zero (s : State) : cycles 0 s = .next s := rfl

end Sys2Proof.Machine
end

