-- ==== Sys2Proof/Laws/Bus.lean ====
section
/-! SUPPORT. The bus said once: the host's part of a cycle that reads or writes, the bits of a window word,
and an empty memory. -/

namespace Sys2Proof.Machine

theorem ite_host (c : Bool) (t u : State) (h : List HostStep) :
    (if c then ({ t with host := h } : State) else { u with host := h }) = { (if c then t else u) with host := h } := by
  cases c <;> rfl

/-- A read does not look at the host's queue. -/
theorem busRead_host (s : State) (a : Offset) (h : List HostStep) :
    ({ s with host := h } : State).busRead a = { s.busRead a with host := h } := by
  have hr : ∀ v, ({ s with host := h } : State).readResult v = { s.readResult v with host := h } := fun v =>
    ite_host s.busy (s.drawRead (BitVec.allOnes 32)) (s.giveRead v) h
  simp only [State.busRead]
  cases target a with
  | csr r => cases r <;> first | rfl | exact hr _
  | inWord j =>
    simp only [State.readIn]
    by_cases hj : bufferWords s.cfg ≤ j
    · simp only [if_pos hj]; rfl
    · simp only [if_neg hj]
      change (match s.inWord j with | some v => _ | none => _) = _
      cases s.inWord j <;> rfl
  | outWord j =>
    simp only [State.readOut]
    by_cases hj : bufferWords s.cfg ≤ j
    · simp only [if_pos hj]; rfl
    · simp only [if_neg hj]
      exact ite_host (s.busy || !s.outValid) (s.drawRead (liveMask s.cfg j)) (s.giveRead (s.outWord j &&& liveMask s.cfg j)) h
  | reserved => rfl

/-- The host's part of a cycle that reads. -/
theorem hostPart_read {s : State} {a : Offset} (ha : aligned a = true) (h : ReadNext s a) :
    s.hostPart = .next { s.busRead a with host := s.host.tail } := by
  obtain ⟨p, rest, hh, _, h2, h3, rfl⟩ := h
  simp only [State.hostPart, hh, State.access, h2, h3, ha, List.tail_cons, busRead_host]
  rfl

/-- The host's part of a cycle that writes. -/
theorem hostPart_write {s : State} {a : Offset} {v : Word} (ha : aligned a = true) (h : WriteNext s a v) :
    s.hostPart = .next ({ s with host := s.host.tail, rdata := none }.busWrite a v) := by
  obtain ⟨p, rest, hh, _, h2, h3, rfl, rfl⟩ := h
  simp [State.hostPart, hh, State.access, h2, h3, ha]

/-! The bits of a window word -/

theorem getLsbD_and_liveMask (v : Word) (cfg : Config) (j : Nat) {b : Nat} (hb : b < 32) :
    (v &&& liveMask cfg j).getLsbD b = (decide (32 * j + b < nMax cfg) && v.getLsbD b) := by
  simp only [BitVec.getLsbD_and, liveMask, getLsbD_wordFrom, hb, decide_true, Bool.true_and, Bool.and_comm]

theorem inBit_word (s : State) (j : Nat) {b : Nat} (hb : b < 32) :
    s.inBit (32 * j + b) = ((s.inWord j).getD 0).getLsbD b := by
  rw [State.inBit, show (32 * j + b) / 32 = j by omega, show (32 * j + b) % 32 = b by omega]

theorem outBit_word (s : State) (j : Nat) {b : Nat} (hb : b < 32) : s.outBit (32 * j + b) = (s.outWord j).getLsbD b := by
  rw [State.outBit, show (32 * j + b) / 32 = j by omega, show (32 * j + b) % 32 = b by omega]

theorem nMax_le_of_bufferWords_le {cfg : Config} {j : Nat} (h : bufferWords cfg ≤ j) : nMax cfg ≤ 32 * j := by
  simp only [bufferWords] at h
  omega

/-! Memory after reset -/

/-- No IN word counts as written in an empty memory. -/
theorem inWritten_of_mem_nil {s : State} (h : s.mem = []) {j : Nat} (hj : j < 16384) : s.inWritten j = false := by
  have hb : Memory.readByte [] (inBase + 4 * j) = none := by
    have hu : ¬ outBase ≤ inBase + 4 * j := by simp only [inBase, outBase]; omega
    simp only [Memory.readByte, Memory.lookup, Memory.unlisted, if_neg hu]
  simp only [State.inWritten, State.inWord, h, Memory.readWord, hb]
  split <;> simp_all

end Sys2Proof.Machine
end

