-- ==== Sys2Proof/Laws/Code.lean ====
section
/-! SUPPORT. The code functions bit by bit: what enc puts at each index, the bits of a syndrome, what a flip does to a check, and
the lengths of every sequence a command makes. -/

namespace Sys2Proof.Machine

/-! Lengths -/

@[simp] theorem placeData_length (d : List Bool) : (placeData d).length = d.length + rcount d.length + 1 := by
  simp [placeData, layout]

@[simp] theorem setParity_length (c : List Bool) (i : Nat) : (setParity c i).length = c.length := by simp [setParity]

@[simp] theorem setGlobal_length (c : List Bool) : (setGlobal c).length = c.length := by simp [setGlobal]

@[simp] theorem foldl_setParity_length (l : List Nat) (c : List Bool) : (l.foldl setParity c).length = c.length := by
  induction l generalizing c with
  | nil => rfl
  | cons i l ih => simp [ih]

@[simp] theorem enc_length (d : List Bool) : (enc d).length = d.length + rcount d.length + 1 := by simp [enc]

@[simp] theorem flipBit_length (c : List Bool) (p : Nat) : (flipBit c p).length = c.length := by simp [flipBit]

theorem extract_length_le (c : List Bool) (h : Nat) : (extract c h).length ≤ h := by
  have := List.length_filter_le (fun p => !isPow2 p) (positions h)
  simpa [extract, positions] using this

/-- The codeword fixed has the length of the one received. -/
theorem fix_length {c c' : List Bool} {k : Diagnosis} {code : Result} (h : fix c k = some (code, c')) :
    c'.length = c.length := by
  cases k <;> simp only [fix, Option.some.injEq, Prod.mk.injEq, reduceCtorEq] at h
  all_goals
    obtain ⟨_, rfl⟩ := h
    simp

/-! The encoder, bit by bit (41_encode.md R160) -/

theorem bitAt_placeData (d : List Bool) {p : Nat} (hp : p < d.length + rcount d.length + 1) :
    bitAt (placeData d) p = if p = 0 ∨ isPow2 p = true then false else bitAt d (rank p - 1) := by
  rw [placeData, bitAt_map_range]
  simp [layout, hp]

theorem covers_two_pow (i j : Nat) : covers i (2 ^ j) = decide (j = i) := Nat.testBit_two_pow

@[simp] theorem covers_zero (i : Nat) : covers i 0 = false := Nat.zero_testBit i

/-- The parity bit of check i: the XOR of the data positions it covers. -/
def dataParity (d : List Bool) (i : Nat) : Bool := xorWhere (covers i) (placeData d)

/-- A parity position is inside the codeword. -/
theorem two_pow_lt_length {d : List Bool} {i : Nat} (h : i < rcount d.length) : 2 ^ i < d.length + rcount d.length + 1 := by
  have := (rcount_spec d.length).2 i h
  omega

/-- After the first k parity steps, each of their positions holds its parity bit and every other index what step 2 put there. -/
theorem bitAt_paritySteps (d : List Bool) : ∀ k, k ≤ rcount d.length → ∀ p, p < d.length + rcount d.length + 1 →
    bitAt ((List.range k).foldl setParity (placeData d)) p =
      if ∃ i, i < k ∧ p = 2 ^ i then dataParity d (Nat.log2 p) else bitAt (placeData d) p
  | 0, _, p, _ => by simp
  | k + 1, hk, p, hp => by
    have ih := bitAt_paritySteps d k (by omega)
    have hk2 := two_pow_lt_length (d := d) (i := k) (by omega)
    rw [List.range_succ, List.foldl_append, List.foldl_cons, List.foldl_nil, setParity, bitAt_set]
    have hpar : xorWhere (fun p => p ≠ 2 ^ k && covers k p) ((List.range k).foldl setParity (placeData d)) = dataParity d k := by
      have h1 : xorWhere (fun p => p ≠ 2 ^ k && covers k p) ((List.range k).foldl setParity (placeData d)) =
          xorWhere (fun p => p ≠ 2 ^ k && covers k p) (placeData d) := by
        refine xorWhere_congr (by simp) fun j hj hs => ?_
        rw [ih j (by simpa using hj), if_neg]
        rintro ⟨i, hi, rfl⟩
        simp only [covers_two_pow, Bool.and_eq_true, decide_eq_true_eq] at hs
        omega
      rw [h1, dataParity]
      refine xorWhere_sel_congr fun j hj hb => ?_
      by_cases hj2 : j = 2 ^ k
      · subst hj2
        rw [bitAt_placeData d hk2] at hb
        simp [isPow2_two_pow] at hb
      · simp [hj2]
    by_cases hpk : 2 ^ k = p
    · subst hpk
      rw [if_pos ⟨rfl, by simpa using hk2⟩, hpar, if_pos ⟨k, by omega, rfl⟩, Nat.log2_two_pow]
    · rw [if_neg (by simp [hpk]), ih p hp]
      have : (∃ i, i < k ∧ p = 2 ^ i) ↔ ∃ i, i < k + 1 ∧ p = 2 ^ i := by
        constructor
        · rintro ⟨i, hi, rfl⟩; exact ⟨i, by omega, rfl⟩
        · rintro ⟨i, hi, rfl⟩
          refine ⟨i, ?_, rfl⟩
          by_contra hik
          exact hpk (by rw [show i = k by omega])
      simp only [this]

/-- The codeword before its global bit. -/
def hammingPortion (d : List Bool) : List Bool := (List.range (rcount d.length)).foldl setParity (placeData d)

theorem enc_eq (d : List Bool) : enc d = setGlobal (hammingPortion d) := rfl

@[simp] theorem hammingPortion_length (d : List Bool) : (hammingPortion d).length = d.length + rcount d.length + 1 := by
  simp [hammingPortion]

/-- A data position of the codeword holds the data bit of its rank. -/
theorem bitAt_enc_data (d : List Bool) {p : Nat} (hp : p < d.length + rcount d.length + 1) (h0 : p ≠ 0)
    (h2 : isPow2 p = false) : bitAt (enc d) p = bitAt d (rank p - 1) := by
  rw [enc_eq, setGlobal, bitAt_set, if_neg (by omega), hammingPortion, bitAt_paritySteps d _ le_rfl p hp, if_neg,
    bitAt_placeData d hp, if_neg (by simp [h0, h2])]
  rintro ⟨i, _, rfl⟩
  simp [isPow2_two_pow] at h2

/-! Checks and the syndrome (42_syndrome.md R180, R181) -/

/-- A check of the codeword does not see the global bit. -/
theorem chk_setGlobal (i : Nat) {c : List Bool} (h : 0 < c.length) : chk i (setGlobal c) = chk i c := by
  rw [chk, setGlobal, xorWhere_set _ _ h, covers_zero]
  simp [chk]

theorem assembleSyndrome_lt (c : List Bool) : ∀ r, assembleSyndrome c r < 2 ^ r
  | 0 => by simp [assembleSyndrome]
  | r + 1 => by
    have := assembleSyndrome_lt c r
    rw [assembleSyndrome, Nat.pow_succ]
    split <;> omega

theorem assembleSyndrome_testBit (c : List Bool) : ∀ r j, (assembleSyndrome c r).testBit j = (decide (j < r) && chk j c)
  | 0, j => by simp [assembleSyndrome]
  | r + 1, j => by
    have ih := assembleSyndrome_testBit c r
    have hlt := assembleSyndrome_lt c r
    rcases Nat.lt_trichotomy j r with h | rfl | h
    · rw [assembleSyndrome, Nat.add_comm]
      split
      · rw [Nat.testBit_two_pow_add_gt h, ih]; simp [h, show j < r + 1 by omega]
      · rw [Nat.zero_add, ih]; simp [h, show j < r + 1 by omega]
    · rw [assembleSyndrome, Nat.add_comm]
      split
      · rename_i hc
        rw [Nat.testBit_two_pow_add_eq, ih]; simp [hc]
      · rename_i hc
        rw [Nat.zero_add, ih]; simp [hc]
    · rw [Nat.testBit_lt_two_pow (Nat.lt_of_lt_of_le (assembleSyndrome_lt c (r + 1)) (Nat.pow_le_pow_right (by omega) h))]
      simp [show ¬ j < r + 1 by omega]

/-- Bit j of a syndrome is check j. -/
theorem synd_testBit (c : List Bool) (j : Nat) :
    (synd c).testBit j = (decide (j < (layoutOf c.length).r) && chk j c) := assembleSyndrome_testBit c _ j

/-- A flip of an index changes the checks that cover it. -/
theorem chk_flipBit (i : Nat) {c : List Bool} {p : Nat} (h : p < c.length) : chk i (flipBit c p) = (chk i c ^^ covers i p) := by
  rw [chk, flipBit, xorWhere_set _ _ h]
  cases bitAt c p <;> simp [chk]

/-- A flip changes the overall check. -/
theorem ovc_flipBit {c : List Bool} {p : Nat} (h : p < c.length) : ovc (flipBit c p) = !ovc c := by
  rw [ovc, flipBit, xorWhere_set _ _ h]
  cases bitAt c p <;> simp [ovc]

theorem bitAt_flipBit (c : List Bool) {p : Nat} (h : p < c.length) (i : Nat) :
    bitAt (flipBit c p) i = (bitAt c i ^^ decide (i = p)) := by
  rw [flipBit, bitAt_set]
  by_cases hp : p = i
  · subst hp; simp [h]
  · simp [hp, Ne.symm hp]

@[simp] theorem foldl_flipBit_length (e : List Nat) (c : List Bool) : (e.foldl flipBit c).length = c.length := by
  induction e generalizing c with
  | nil => rfl
  | cons p e ih => simp [ih]

/-- Flipping distinct indices flips exactly those. -/
theorem bitAt_foldl_flipBit : ∀ (e : List Nat) (c : List Bool), e.Nodup → (∀ p ∈ e, p < c.length) → ∀ i,
    bitAt (e.foldl flipBit c) i = (bitAt c i ^^ decide (i ∈ e))
  | [], c, _, _, i => by simp
  | p :: e, c, hn, hl, i => by
    have hn' := List.nodup_cons.1 hn
    rw [List.foldl_cons, bitAt_foldl_flipBit e (flipBit c p) hn'.2
      (fun q hq => by simpa using hl q (List.mem_cons_of_mem _ hq)) i, bitAt_flipBit c (hl p List.mem_cons_self)]
    by_cases h : i = p
    · subst h; simp [hn'.1]
    · simp [h]

end Sys2Proof.Machine
end

