-- ==== Sys2Proof/Laws/PerInstr.lean ====
section
/-! SUPPORT. Statements made of each instruction in turn, one lemma per constructor. -/

namespace Sys2Proof.Laws.CommandWord

/-- The instruction is well formed, and its CMD value is one of 0x00000001 to 0x00000007 (30_encoding.md R103, R104). -/
def Statement (i : Instr) : Prop := i.wellFormed = true ∧ 1 ≤ (encode i).toNat ∧ (encode i).toNat ≤ 7

theorem layout : Statement .layout := ⟨rfl, by decide, by decide⟩
theorem pclass : Statement .pclass := ⟨rfl, by decide, by decide⟩
theorem dpos : Statement .dpos := ⟨rfl, by decide, by decide⟩
theorem encode : Statement .encode := ⟨rfl, by decide, by decide⟩
theorem syndrome : Statement .syndrome := ⟨rfl, by decide, by decide⟩
theorem correct : Statement .correct := ⟨rfl, by decide, by decide⟩
theorem decode : Statement .decode := ⟨rfl, by decide, by decide⟩

end Sys2Proof.Laws.CommandWord
end

