-- ==== Sys2Proof/Laws/Program.lean ====
section
/-! SUPPORT. What spacing out a host program does: it adds idle cycles and nothing else. -/

namespace Sys2Proof

@[simp] theorem spaceOut_no_gaps (steps : List HostStep) : spaceOut [] steps = steps := by cases steps <;> rfl

@[simp] theorem spaceOut_no_steps (gaps : List Nat) : spaceOut gaps [] = [] := by cases gaps <;> rfl

@[simp] theorem spaceOut_cons (gap : Nat) (gaps : List Nat) (step : HostStep) (steps : List HostStep) :
    spaceOut (gap :: gaps) (step :: steps) = List.replicate gap (.drive idleCycle) ++ step :: spaceOut gaps steps := rfl

/-- Spacing keeps every step but the idle cycles, in order. -/
theorem filter_spaceOut (gaps : List Nat) (steps : List HostStep) :
    (spaceOut gaps steps).filter (· ≠ .drive idleCycle) = steps.filter (· ≠ .drive idleCycle) := by
  induction steps generalizing gaps with
  | nil => simp
  | cons step steps ih =>
    cases gaps with
    | nil => simp
    | cons gap gaps => simp only [spaceOut_cons, List.filter_append, List.filter_replicate, List.filter_cons, ih]; simp

/-- A program with no gaps is its statements' steps, one after the other. -/
theorem encodeProgram_no_gaps (program : List Stmt) : encodeProgram [] program = program.flatMap encodeStmt := by
  simp [encodeProgram]

end Sys2Proof
end

