-- ==== Sys2Proof/Tests/Slice0.lean ====
section
/-! SUPPORT. The model's own tests: ill-formed terms the checks refuse, command words written out from 30_encoding.md R103, one
step of each command on values of 95_test_vectors.md, and for every statement with hypotheses a state and operands that meet
them, at the ends of their ranges. -/

namespace Sys2Proof.Tests

set_option Elab.async false

open Sys2Proof Sys2Proof.Machine

/-! Helpers -/

/-- An idle block of the instance DATA_MAX = d, with the registers and the first IN words given. -/
def block (d : Fin 524269) (arg arg2 : Word) (words : List Word) : State :=
  words.zipIdx.foldl (fun s x => s.storeIn x.2 x.1) { State.reset with cfg := ⟨d⟩, arg := arg, arg2 := arg2 }

/-- The same with the command word in flight, k cycles before its completion cycle, and the host's coming cycles. -/
def flying (s : State) (w : Word) (k : Nat) (host : List HostStep) : State :=
  { s with cmd := w, inflight := some k, host := host }

/-- The state with the host's coming cycles. -/
def driven (s : State) (host : List HostStep) : State := { s with host := host }

/-- What a host sees after a step: STATUS, RES0, RES1, RES2, OUTLEN, OUT words 0 and 1. -/
def seen : Host.Outcome State Fault Refusal → Option (Word × List Nat × List Word)
  | .next t => some (t.status, [t.res0.toNat, t.res1.toNat, t.res2.toNat, t.outLen.toNat], [t.outWord 0, t.outWord 1])
  | .fault _ => none
  | .refused _ => none

/-- One step that runs a command on a block of the reference instance. -/
def run (w : Nat) (arg arg2 : Word) (words : List Word) : Host.Outcome State Fault Refusal :=
  step ((block 1013 arg arg2 words).withFetchWord 32 w)

/-- What a read returns, or STATUS after a write, in one step. -/
def readData : Host.Outcome State Fault Refusal → Option Word
  | .next t => t.rdata
  | .fault _ => none
  | .refused _ => none

def statusAfter : Host.Outcome State Fault Refusal → Option Word
  | .next t => some t.status
  | .fault _ => none
  | .refused _ => none

/-- The next state, the fault, the refusal of a step. -/
def nextState : Host.Outcome State Fault Refusal → Option State
  | .next t => some t
  | .fault _ => none
  | .refused _ => none

def faultOf : Host.Outcome State Fault Refusal → Option Fault
  | .next _ => none
  | .fault f => some f
  | .refused _ => none

def refusalOf : Host.Outcome State Fault Refusal → Option Refusal
  | .next _ => none
  | .fault _ => none
  | .refused r => some r

theorem eq_next {o : Host.Outcome State Fault Refusal} {t : State} (h : nextState o = some t) : o = .next t := by
  cases o with
  | next u => rw [Option.some.inj h]
  | fault f => cases h
  | refused r => cases h

/-- A step with a STATUS after it is a step to a next state. -/
theorem next_of_status {o : Host.Outcome State Fault Refusal} {w : Word} (h : statusAfter o = some w) :
    ∃ t, o = .next t ∧ t.status = w := by
  cases o with
  | next t => exact ⟨t, rfl, Option.some.inj h⟩
  | fault f => cases h
  | refused r => cases h

/-! Ill-formed terms (20_memory.md R70, R74, R76, R78; 30_encoding.md R112) -/

theorem test_misaligned_refused : (HostStep.drive (readCycle 0x00002)).wellFormed = false ∧
    refusalOf (step (driven State.reset [.drive (readCycle 0x00002)])) = some .misaligned := by decide +kernel
theorem test_bothStrobes_refused :
    let p : PortIn := { rst := false, we := true, re := true, addr := 0x00008, wdata := 1 }
    p.wellFormed = false ∧ refusalOf (step (driven State.reset [.drive p])) = some .bothStrobes := by decide +kernel
theorem test_bothStrobes_misaligned_refused :
    let p : PortIn := { rst := false, we := true, re := true, addr := 0x00002, wdata := 1 }
    p.wellFormed = false ∧ refusalOf (step (driven State.reset [.drive p])) = some .bothStrobes ∧
    refusalOf (step (driven State.reset [.drive { p with rst := true }])) = none := by decide +kernel
theorem test_wrIn_index_refused : (Stmt.wrIn 16384 0).wellFormed = false ∧ (Stmt.wrIn 16383 0).wellFormed = true := by decide
theorem test_rdIn_index_refused : (Stmt.rdIn 16384).wellFormed = false ∧ (Stmt.rdIn 16383).wellFormed = true := by decide
theorem test_rdOut_index_refused : (Stmt.rdOut 16384).wellFormed = false ∧ (Stmt.rdOut 16383).wellFormed = true := by decide
theorem test_correct_syndrome_refused : (Stmt.correct 11 0x80000000 true).wellFormed = false ∧
    (Stmt.correct 11 0x7FFFFFFF true).wellFormed = true := by decide

/-! Command words, from the encoding column of 30_encoding.md R103 -/

theorem test_decode_layout : decodeCmd 0b00000000000000000000000000000001 = .command .layout := by decide
theorem test_decode_pclass : decodeCmd 0b00000000000000000000000000000010 = .command .pclass := by decide
theorem test_decode_dpos : decodeCmd 0b00000000000000000000000000000011 = .command .dpos := by decide
theorem test_decode_encode : decodeCmd 0b00000000000000000000000000000100 = .command .encode := by decide
theorem test_decode_syndrome : decodeCmd 0b00000000000000000000000000000101 = .command .syndrome := by decide
theorem test_decode_correct : decodeCmd 0b00000000000000000000000000000110 = .command .correct := by decide
theorem test_decode_decode : decodeCmd 0b00000000000000000000000000000111 = .command .decode := by decide
/-- 95_test_vectors.md section 2.8, and the last value before RSVD. -/
theorem test_decode_illegal : decodeCmd 0x00000000 = .illegal .reservedOp ∧ decodeCmd 0x00000008 = .illegal .reservedOp ∧
    decodeCmd 0x0000000F = .illegal .reservedOp ∧ decodeCmd 0x00000017 = .illegal .reservedBits ∧
    decodeCmd 0x80000004 = .illegal .reservedBits := by decide
theorem test_tableWord : decodeTableWord 32 6 = some .correct ∧ decodeTableWord 32 0x16 = none ∧ decodeTableWord 8 7 = some .decode := by
  decide

/-! One step of each command (95_test_vectors.md sections 2.1 to 2.8) -/

theorem test_layout_12 : seen (run 1 12 0 []) = some (0x12, [5, 18, 17, 0], [0, 0]) := by decide +kernel
theorem test_layout_over : seen (run 1 1014 0 []) = some (0x62, [0, 0, 0, 0], [0, 0]) := by decide +kernel
theorem test_pclass_last_data : seen (run 2 1023 0 []) = some (0x12, [0, 1013, 0, 0], [0, 0]) := by decide +kernel
theorem test_pclass_512 : seen (run 2 512 0 []) = some (0x12, [1, 9, 0, 0], [0, 0]) := by decide +kernel
theorem test_dpos_503 : seen (run 3 503 0 []) = some (0x12, [513, 0, 0, 0], [0, 0]) := by decide +kernel
theorem test_dpos_0 : seen (run 3 0 0 []) = some (0x62, [0, 0, 0, 0], [0, 0]) := by decide +kernel
theorem test_encode_deadbeef :
    seen (run 4 32 0 [0xDEADBEEF]) = some (0x12, [6, 39, 38, 39], [0xAB6EDCEF, 0x0000006F]) := by decide +kernel
theorem test_syndrome_beyond_h : seen (run 5 6 0 [0x24]) = some (0x12, [7, 0, 2, 0], [0, 0]) := by decide +kernel
theorem test_syndrome_odd : seen (run 5 4 0 [0x07]) = some (0x12, [3, 1, 1, 0], [0, 0]) := by decide +kernel
theorem test_correct_trusts_arg2 :
    seen (run 6 11 0x80000008 [0x351]) = some (0x22, [8, 1, 6, 11], [0x251, 0]) := by decide +kernel
theorem test_correct_largest_syndrome :
    seen (run 6 11 0xFFFFFFFF [0x351]) = some (0x42, [2147483647, 1, 6, 0], [0, 0]) := by decide +kernel
theorem test_decode_parity_flip :
    seen (run 7 39 0 [0xAB6EDCEF, 0x6E]) = some (0x22, [32, 1, 32, 32], [0xDEADBEEF, 0]) := by decide +kernel
theorem test_decode_three_flips : seen (run 7 11 0 [0x357]) = some (0x32, [0, 1, 6, 6], [0x14, 0]) := by decide +kernel
theorem test_illegal_before_range : seen (run 0x17 1025 0 []) = some (0x72, [0, 0, 0, 0], [0, 0]) := by decide +kernel
theorem test_unwritten_operand : faultOf (run 4 6 0 []) = some .unwrittenOperand := by decide +kernel

/-! One step of the bus (95_test_vectors.md section 2.9) -/

theorem test_read_cfg : readData (step (driven State.reset (encodeStmt (.rdReg .cfgMmax)))) = some 1013 ∧
    readData (step (driven State.reset (encodeStmt (.rdReg .cfgNmax)))) = some 1024 := by decide +kernel
theorem test_in_beyond_w :
    readData (step (driven (block 1013 0 0 []) (encodeStmt (.rdIn 32)))) = some 0 ∧
    readData (step (driven ((block 1013 0 0 []).storeIn 31 0xFFFFFFFF) (encodeStmt (.rdIn 31)))) = some 0xFFFFFFFF := by decide +kernel
theorem test_status_write :
    let s : State := { State.reset with done := true, ovr := true, result := .ok }
    statusAfter (step (driven s (encodeStmt (.wrReg .status 2)))) = some 0x14 ∧
    statusAfter (step (driven s (encodeStmt (.wrReg .status 0xFFFFFFFF)))) = some 0x10 := by decide +kernel
theorem test_dropped_write :
    statusAfter (step (flying State.reset 1 3 (encodeStmt (.wrReg .arg 7)))) = some 0x05 := by decide +kernel

/-- Program P4 of 95_test_vectors.md: the write that races the completion of DECODE 5 is dropped in the completion's cycle and
lands a cycle later. -/
theorem test_racing_write :
    let issued := fun gaps => flying (block 1013 5 0 []) 7 0 (encodeProgram gaps [.wrReg .arg 9])
    statusAfter (cycles 2 (issued [])) = some 0x56 ∧ statusAfter (cycles 2 (issued [1])) = some 0x52 := by decide +kernel

/-- The reset memory is in canonical form. -/
theorem test_reset_memory : State.reset.mem.wf := by decide

/-! What meets the hypotheses of each statement. `reads`, `writes` and `resets` show that a cycle is of its kind. -/

theorem reads (s : State) (a : Offset) (rest : List HostStep) : ReadNext (driven s (.drive (readCycle a) :: rest)) a :=
  ⟨readCycle a, rest, rfl, rfl, rfl, rfl, rfl⟩

theorem writes (s : State) (a : Offset) (v : Word) (rest : List HostStep) :
    WriteNext (driven s (.drive (writeCycle a v) :: rest)) a v :=
  ⟨writeCycle a v, rest, rfl, rfl, rfl, rfl, rfl, rfl⟩

theorem resets (s : State) (rest : List HostStep) : ResetNext (driven s (.drive resetCycle :: rest)) :=
  ⟨resetCycle, rest, rfl, rfl⟩

/-- A cycle that neither idles nor resets is none of reset. -/
theorem drives_not_reset (s : State) (a : Offset) : ¬ ResetNext (driven s [.drive (readCycle a)]) := by
  rintro ⟨p, rest, hh, hp⟩
  cases hh
  cases hp

theorem idles_not_reset (s : State) : ¬ ResetNext (driven s []) := by
  rintro ⟨p, rest, hh, _⟩
  cases hh

/-- The state a completed ENCODE leaves, and one that offers a given word as a codeword of length 11. -/
def encoded : State := (block 6 6 0 [0x15]).complete (layoutReport (layout 6) (enc [true, false, true, false, true, false]))

theorem encoded_of_encode : exec .encode (block 6 6 0 [0x15]) = .next encoded := eq_next (by decide +kernel)

theorem carries_of (v : Word) (e : List Nat) (hw : (block 6 11 0 [v]).operandWritten 11 = true)
    (h : ∀ i < 11, (block 6 11 0 [v]).inBit i = (encoded.outBit i ^^ decide (i ∈ e))) : Carries encoded (block 6 11 0 [v]) e where
  cfg := rfl
  length := rfl
  written := hw
  bits := h

theorem witness_DecodeIsInverseOfEncode : ∀ i, (0x00000008 : Word) ≠ encode i ∧ (0x00000010 : Word) ≠ encode i := by
  intro i; cases i <;> decide

theorem witness_ResetValues : 31 < bufferWords State.reset.cfg := by decide +kernel

theorem witness_IllegalCommandCompletes :
    (flying State.reset 0x10 0 []).inflight = some 0 ∧ ¬ ResetNext (driven (flying State.reset 0x10 0 []) []) ∧
    (∃ u, (flying State.reset 0x10 0 []).hostPart = .next u) ∧
    (0x10 : Word).extractLsb' 4 28 ≠ 0 ∧ ((0x0 : Word).extractLsb' 0 4).toNat = 0 ∧
    8 ≤ ((0x8 : Word).extractLsb' 0 4).toNat ∧ 8 ≤ ((0xF : Word).extractLsb' 0 4).toNat :=
  ⟨rfl, idles_not_reset _, ⟨_, rfl⟩, by decide, by decide, by decide, by decide⟩

theorem witness_PseudoInstructionsIssue :
    State.reset.busy = false ∧ (Stmt.correct 11 0x7FFFFFFF true).wellFormed = true := by decide

theorem witness_ResetEdge : ResetNext (driven (flying (block 6 6 0 [0x15]) 4 0 []) [.drive resetCycle]) := resets _ _

theorem witness_StatusRegister :
    ({ State.reset with result := .malformed } : State).result = .malformed ∧ 8 ≤ 31 ∧
    WriteNext (driven State.reset [.drive (writeCycle 0x00004 6)]) 0x00004 6 := ⟨rfl, by decide, writes _ _ _ _⟩

theorem witness_RegisterReads :
    (driven State.reset [.drive (readCycle 0x00000)]).busy = false ∧
    ReadNext (driven State.reset [.drive (readCycle 0x00000)]) 0x00000 ∧
    ReadNext (driven State.reset [.drive (readCycle 0x00024)]) 0x00024 := ⟨rfl, reads _ _ _, reads _ _ _⟩

/-- A register, the last IN word, a result register, the last OUT word of the instance W = 2. -/
theorem witness_ReadsWhileBusy :
    let s := flying (block 40 0 0 [0x1, 0x4000]) 1 0 []
    s.busy = true ∧ ReadNext (driven s [.drive (readCycle 0x00008)]) 0x00008 ∧
    ReadNext (driven s [.drive (readCycle 0x10004)]) 0x10004 ∧ bufferWords s.cfg = 2 ∧ s.inWord 1 = some 0x4000 ∧
    ReadNext (driven s [.drive (readCycle 0x0001C)]) 0x0001C ∧ ReadNext (driven s [.drive (readCycle 0x20004)]) 0x20004 :=
  ⟨rfl, reads _ _ _, reads _ _ _, by decide, by decide +kernel, reads _ _ _, reads _ _ _⟩

theorem witness_ReservedOffsets :
    (∀ n ∈ [0x00028, 0x0FFFC, 0x30000, 0x3FFFC], aligned (BitVec.ofNat 18 n) = true ∧ (BitVec.ofNat 18 n).toNat = n) ∧
    ReadNext (driven State.reset [.drive (readCycle 0x3FFFC)]) 0x3FFFC ∧
    WriteNext (driven State.reset [.drive (writeCycle 0x00028 1)]) 0x00028 1 :=
  ⟨by decide +kernel, reads _ _ _, writes _ _ _ _⟩

/-- The first word, the last of W, the first beyond, the last of the window. -/
theorem witness_InWindow :
    (∀ j ∈ [0, 31, 32, 16383], j < 16384 ∧ (BitVec.ofNat 18 (0x10000 + 4 * j)).toNat = 0x10000 + 4 * j) ∧
    bufferWords State.reset.cfg = 32 ∧ State.reset.busy = false ∧
    WriteNext (driven State.reset [.drive (writeCycle 0x1007C 5)]) 0x1007C 5 ∧
    ReadNext (driven (block 6 0 0 [0x15]) [.drive (readCycle 0x10000)]) 0x10000 ∧ (block 6 0 0 [0x15]).inWritten 0 = true ∧
    bufferWords (block 6 0 0 [0x15]).cfg ≤ 1 :=
  ⟨by decide, by decide, rfl, writes _ _ _ _, reads _ _ _, by decide +kernel, by decide⟩

theorem witness_OutWindow :
    (∀ j ∈ [0, 31, 32, 16383], j < 16384 ∧ (BitVec.ofNat 18 (0x20000 + 4 * j)).toNat = 0x20000 + 4 * j) ∧
    encoded.busy = false ∧ encoded.outValid = true ∧ ReadNext (driven encoded [.drive (readCycle 0x2007C)]) 0x2007C ∧
    WriteNext (driven encoded [.drive (writeCycle 0x2FFFC 5)]) 0x2FFFC 5 :=
  ⟨by decide, by decide +kernel, by decide +kernel, reads _ _ _, writes _ _ _ _⟩

/-- Dropped: CMD, ARG, ARG2, IN words 0 and W - 1. Not dropped: STATUS, IN word W, a result register, OUT, a reserved offset. -/
theorem witness_WritesWhileBusyDropped :
    let s := flying State.reset 1 0 []
    s.busy = true ∧ bufferWords s.cfg = 32 ∧
    (∀ n ∈ [0x00000, 0x00004, 0x00008, 0x0000C, 0x00010, 0x00028, 0x10000, 0x1007C, 0x10080, 0x20000],
      aligned (BitVec.ofNat 18 n) = true ∧ (BitVec.ofNat 18 n).toNat = n) ∧
    0x1007C = 0x10000 + 4 * 31 ∧ 0x10080 = 0x10000 + 4 * 32 ∧
    WriteNext (driven s [.drive (writeCycle 0x1007C 5)]) 0x1007C 5 ∧
    WriteNext (driven s [.drive (writeCycle 0x10080 5)]) 0x10080 5 :=
  ⟨rfl, by decide, by decide +kernel, rfl, rfl, writes _ _ _ _, writes _ _ _ _⟩

theorem witness_RegisterWrites :
    State.reset.busy = false ∧ WriteNext (driven State.reset [.drive (writeCycle 0x00008 7)]) 0x00008 7 ∧
    WriteNext (driven State.reset [.drive (writeCycle 0x0000C 7)]) 0x0000C 7 ∧
    WriteNext (driven State.reset [.drive (writeCycle 0x00024 7)]) 0x00024 7 := ⟨rfl, writes _ _ _ _, writes _ _ _ _, writes _ _ _ _⟩

theorem witness_CmdWriteIssues :
    (driven State.reset [.drive (writeCycle 0x00000 0xFFFFFFFF)]).busy = false ∧
    WriteNext (driven State.reset [.drive (writeCycle 0x00000 0xFFFFFFFF)]) 0x00000 0xFFFFFFFF := ⟨rfl, writes _ _ _ _⟩

theorem witness_ReadsHaveNoSideEffect :
    aligned 0x3FFFC = true ∧ ReadNext (driven State.reset [.drive (readCycle 0x3FFFC)]) 0x3FFFC := ⟨by decide, reads _ _ _⟩

theorem witness_CycleOrder :
    (¬ ResetNext (driven State.reset []) ∧ (driven State.reset []).hostPart = .next State.reset ∧ State.reset.inflight = none) ∧
    (∃ u, (flying State.reset 1 1 []).hostPart = .next u) ∧ (flying State.reset 1 1 []).inflight = some (0 + 1) ∧
    (∃ u, (flying State.reset 7 0 []).hostPart = .next u) ∧ (flying State.reset 7 0 []).inflight = some 0 ∧
    decodeCmd (flying State.reset 7 0 []).cmd = .command .decode :=
  ⟨⟨idles_not_reset _, rfl, rfl⟩, ⟨_, rfl⟩, rfl, ⟨_, rfl⟩, rfl, by decide⟩

theorem witness_StepRunsDecodedCommand :
    (flying State.reset 7 0 []).inflight = some 0 ∧ (flying State.reset 7 0 []).host = [] ∧
    decodeCmd (flying State.reset 7 0 []).cmd = .command .decode := ⟨rfl, rfl, by decide⟩

theorem witness_OperandsHeldInFlight :
    let s := flying State.reset 7 0 []
    s.busy = true ∧ ¬ ResetNext s ∧ ∃ t, step s = .next t ∧ t.status = 0x52 :=
  ⟨rfl, idles_not_reset (flying State.reset 7 0 []), next_of_status (by decide +kernel)⟩

theorem witness_CompletesWithinLatency :
    (flying State.reset 7 5 []).inflight = some 5 ∧ (flying State.reset 7 5 []).host = [] ∧
    decodeCmd (flying State.reset 7 5 []).cmd = .command .decode := ⟨rfl, rfl, by decide⟩

theorem witness_WaitLoopEnds :
    let s := flying State.reset 7 0 [.poll, .poll]
    s.inflight = some 0 ∧ s.host = .poll :: [.poll] ∧ ∃ u, s.completionStep = .next u ∧ u.status = 0x52 :=
  ⟨rfl, rfl, next_of_status (by decide +kernel)⟩

/-- The ends of the layout of 6: checks 0 and 3, positions 1 and 10. -/
theorem witness_ParityPositionsOfLayout : 3 < rcount 6 ∧ 1 ≤ 10 ∧ 10 ≤ 6 + rcount 6 := by decide +kernel

theorem witness_WellFormedLengths : 6 + rcount 6 + 1 = 6 + rcount 6 + 1 ∧ wellFormedLength 11 = true ∧
    wellFormedLength 9 = false := by decide +kernel

theorem witness_RankAndPositionInverse : isPow2 3 = false ∧ isPow2 1023 = false ∧ 1 ≤ 3 := by decide +kernel

/-- DATA_MAX and the first value beyond. -/
theorem witness_LayoutCommand :
    (block 1013 1013 0 []).arg.toNat ≤ dataMax (block 1013 1013 0 []).cfg ∧
    dataMax (block 1013 1014 0 []).cfg < (block 1013 1014 0 []).arg.toNat := by decide

/-- Index 0, the first and last parity positions, the last data position, the first value beyond. -/
theorem witness_PclassCommand :
    hMax (block 1013 0 0 []).cfg = 1023 ∧ (block 1013 0 0 []).arg.toNat = 0 ∧ (block 1013 1 0 []).arg.toNat = 2 ^ 0 ∧
    (block 1013 512 0 []).arg.toNat = 2 ^ 9 ∧ (block 1013 1023 0 []).arg.toNat = 1023 ∧ (∀ i, 1023 ≠ 2 ^ i) ∧
    1023 < (block 1013 1024 0 []).arg.toNat := by
  refine ⟨by decide +kernel, by decide, by decide, by decide, by decide, fun i h => ?_, by decide⟩
  have h1 : 2 ^ 9 < 2 ^ i := by omega
  have h2 : 2 ^ i < 2 ^ 10 := by omega
  have h3 := (Nat.pow_lt_pow_iff_right (a := 2) (by decide)).1 h1
  have h4 := (Nat.pow_lt_pow_iff_right (a := 2) (by decide)).1 h2
  omega

/-- Ranks 1 and DATA_MAX; 0 and the first value beyond. -/
theorem witness_DposCommand :
    dataMax (block 1013 0 0 []).cfg = 1013 ∧ 1 ≤ (block 1013 1 0 []).arg.toNat ∧ (block 1013 1013 0 []).arg.toNat = 1013 ∧
    (block 1013 0 0 []).arg.toNat = 0 ∧ 1013 < (block 1013 1014 0 []).arg.toNat := by decide

/-- No data, DATA_MAX bits, one more; a word never written. -/
theorem witness_EncodeCommand :
    (block 6 0 0 []).operandWritten (block 6 0 0 []).arg.toNat = true ∧
    (block 6 6 0 [0x15]).arg.toNat ≤ dataMax (block 6 6 0 [0x15]).cfg ∧
    (block 6 6 0 [0x15]).operandWritten (block 6 6 0 [0x15]).arg.toNat = true ∧
    dataMax (block 6 7 0 []).cfg < (block 6 7 0 []).arg.toNat ∧
    (block 6 1 0 []).arg.toNat ≤ dataMax (block 6 1 0 []).cfg ∧
    (block 6 1 0 []).operandWritten (block 6 1 0 []).arg.toNat = false := by decide +kernel

theorem witness_CodewordInvariants :
    3 < rcount [true, false, true, false, true, false].length ∧ 6 ≤ [true, false, true, false, true, false].length := by
  decide +kernel

theorem witness_MinimumDistanceFour : [true].length = [false].length ∧ [true] ≠ [false] := by decide

theorem witness_SyndromeIsXorOfPositions : wellFormedLength [true].length = true ∧
    wellFormedLength [true, true, true, true].length = true := by decide +kernel

theorem witness_SyndromeLinear :
    wellFormedLength [true, true, true, true].length = true ∧ [0, 3].Nodup ∧
    ∀ p ∈ [0, 3], p < [true, true, true, true].length := by decide +kernel

theorem witness_SyndromeBound :
    wellFormedLength [true, true, true, true].length = true ∧ [true, true, true, true].length ≤ nMax ⟨1⟩ := by decide +kernel

/-- N_MAX = 11 and one more; the lengths 0 and 9; a word never written. -/
theorem witness_SyndromeCommand :
    nMax (block 6 11 0 [0x359]).cfg = 11 ∧ (block 6 11 0 [0x359]).arg.toNat = 11 ∧ wellFormedLength 11 = true ∧
    (block 6 11 0 [0x359]).operandWritten 11 = true ∧ 11 < (block 6 12 0 []).arg.toNat ∧
    wellFormedLength (block 6 0 0 []).arg.toNat = false ∧ wellFormedLength (block 6 9 0 []).arg.toNat = false ∧
    (block 6 1 0 []).operandWritten (block 6 1 0 []).arg.toNat = false ∧ wellFormedLength 1 = true := by decide +kernel

theorem witness_DecisionTable : (0 : Nat) = 0 ∧ (10 : Nat) ≠ 0 ∧ 10 ≤ 10 ∧ 10 < 11 := by decide

/-- The same lengths; (s, o) of 0 and 0, 0 and 1, h and 1, h + 1 and 1, 6 and 0. -/
theorem witness_CorrectCommand :
    nMax (block 6 11 0x8000000A [0x351]).cfg = 11 ∧ wellFormedLength 11 = true ∧
    (block 6 11 0x8000000A [0x351]).operandWritten 11 = true ∧
    (∀ x ∈ [((0x00000000 : Word), 0, false), (0x80000000, 0, true), (0x8000000A, 11 - 1, true), (0x8000000B, 11, true),
      (0x00000006, 6, false)], (x.1.extractLsb' 0 31).toNat = x.2.1 ∧ x.1.getLsbD 31 = x.2.2) ∧
    11 < (block 6 12 0 []).arg.toNat ∧ wellFormedLength (block 6 9 0 []).arg.toNat = false ∧
    (block 6 1 0 []).operandWritten (block 6 1 0 []).arg.toNat = false ∧ wellFormedLength 1 = true := by decide +kernel

/-- No flip, index 0, index h, two, three with XOR 0, within h and beyond it, four with XOR 0 and not. -/
theorem witness_DiagnosisByErrorWeight :
    let n := (enc [true, false, true, false, true, false]).length
    n = 11 ∧
    (∀ e ∈ [[], [0], [10], [9, 10], [1, 2, 3], [0, 3, 5], [4, 8, 1], [0, 1, 2, 3], [5, 6, 7, 9]],
      e.Nodup ∧ ∀ p ∈ e, p < n) ∧
    [1, 2, 3].foldl (· ^^^ ·) 0 = 0 ∧ [0, 3, 5].foldl (· ^^^ ·) 0 = 6 ∧ n - 1 < [4, 8, 1].foldl (· ^^^ ·) 0 ∧
    [0, 1, 2, 3].foldl (· ^^^ ·) 0 = 0 ∧ [5, 6, 7, 9].foldl (· ^^^ ·) 0 = 13 := by decide +kernel

/-- The four rows of the table, row 4 in both its ways, on the codeword 0x359 with no flip, index 0, index h, two flips; and
positions 4, 8, 1 flipped, whose syndrome 13 is beyond h. -/
theorem witness_DecodeCommand :
    let c := fun v : Word => (block 6 11 0 [v]).inBits 11
    nMax (block 6 11 0 [0x359]).cfg = 11 ∧ wellFormedLength 11 = true ∧ (block 6 11 0 [0x359]).operandWritten 11 = true ∧
    (synd (c 0x359) = 0 ∧ ovc (c 0x359) = false) ∧ (synd (c 0x358) = 0 ∧ ovc (c 0x358) = true) ∧
    (synd (c 0x759) = 11 - 1 ∧ ovc (c 0x759) = true) ∧ (synd (c 0x371) = 6 ∧ ovc (c 0x371) = false) ∧
    (synd (c 0x24B) = 13 ∧ ovc (c 0x24B) = true) ∧
    11 < (block 6 12 0 []).arg.toNat ∧ wellFormedLength (block 6 9 0 []).arg.toNat = false ∧
    (block 6 1 0 []).operandWritten (block 6 1 0 []).arg.toNat = false := by decide +kernel

/-- A success and an UNCORRECTABLE word. -/
theorem witness_DecodeIsSyndromeThenCorrect :
    nMax (block 6 11 0 [0x351]).cfg = 11 ∧ wellFormedLength 11 = true ∧ (block 6 11 0 [0x351]).operandWritten 11 = true ∧
    (block 6 11 0 [0x371]).operandWritten 11 = true ∧
    statusAfter (exec .decode (block 6 11 0 [0x351])) = some 0x22 ∧
    statusAfter (exec .decode (block 6 11 0 [0x371])) = some 0x42 := by decide +kernel

theorem witness_RoundTrip :
    (block 6 6 0 [0x15]).arg.toNat ≤ dataMax (block 6 6 0 [0x15]).cfg ∧
    (block 6 6 0 [0x15]).operandWritten (block 6 6 0 [0x15]).arg.toNat = true ∧
    exec .encode (block 6 6 0 [0x15]) = .next encoded ∧ Carries encoded (block 6 11 0 [0x359]) [] :=
  ⟨by decide, by decide +kernel, encoded_of_encode, carries_of _ _ (by decide +kernel) (by decide +kernel)⟩

theorem witness_SingleErrorCorrected :
    (block 6 6 0 [0x15]).operandWritten (block 6 6 0 [0x15]).arg.toNat = true ∧
    exec .encode (block 6 6 0 [0x15]) = .next encoded ∧ encoded.outLen.toNat = 11 ∧
    Carries encoded (block 6 11 0 [0x358]) [0] ∧ Carries encoded (block 6 11 0 [0x759]) [10] :=
  ⟨by decide +kernel, encoded_of_encode, by decide +kernel, carries_of _ _ (by decide +kernel) (by decide +kernel),
    carries_of _ _ (by decide +kernel) (by decide +kernel)⟩

theorem witness_DoubleErrorDetected :
    (block 6 6 0 [0x15]).operandWritten (block 6 6 0 [0x15]).arg.toNat = true ∧
    exec .encode (block 6 6 0 [0x15]) = .next encoded ∧ encoded.outLen.toNat = 11 ∧
    Carries encoded (block 6 11 0 [0x758]) [0, 10] ∧ (0 : Nat) ≠ 10 :=
  ⟨by decide +kernel, encoded_of_encode, by decide +kernel, carries_of _ _ (by decide +kernel) (by decide +kernel), by decide⟩

/-- One step beyond each range, and a step that ends with RANGE. -/
theorem witness_RangeExactly :
    OutOfRange .layout (block 6 7 0 []) ∧ OutOfRange .pclass (block 6 11 0 []) ∧ OutOfRange .dpos (block 6 0 0 []) ∧
    OutOfRange .dpos (block 6 7 0 []) ∧ OutOfRange .encode (block 6 7 0 []) ∧ OutOfRange .syndrome (block 6 12 0 []) ∧
    OutOfRange .correct (block 6 12 0 []) ∧ OutOfRange .decode (block 6 12 0 []) ∧
    ∃ t, exec .decode (block 6 12 0 []) = .next t ∧ t.status = 0x62 := by
  refine ⟨?_, ?_, .inl ?_, .inr ?_, ?_, ?_, ?_, ?_, next_of_status ?_⟩ <;> first | decide +kernel | (simp only [OutOfRange]; decide +kernel)

theorem witness_MalformedExactly :
    Malformed .syndrome (block 6 0 0 []) ∧ Malformed .correct (block 6 2 0 []) ∧ Malformed .decode (block 6 9 0 []) ∧
    ∃ t, exec .decode (block 6 9 0 []) = .next t ∧ t.status = 0x52 :=
  ⟨⟨rfl, by decide, .inl (by decide)⟩, ⟨rfl, by decide +kernel, .inr ⟨0, by decide⟩⟩, ⟨rfl, by decide +kernel, .inr ⟨3, by decide⟩⟩,
    next_of_status (by decide +kernel)⟩

theorem witness_FaultsExactlyOnUnwrittenOperand :
    Unwritten .encode (block 6 1 0 []) ∧ ¬ Unwritten .decode (block 6 9 0 []) := by
  refine ⟨⟨rfl, by simp [OutOfRange, block, State.reset, dataMax], by simp [Malformed, takesCodeword], 0, by decide, by decide +kernel⟩, ?_⟩
  rintro ⟨_, _, h, _⟩
  exact h ⟨rfl, by decide +kernel, .inr ⟨3, by decide⟩⟩

theorem witness_CodesOfCommands :
    (∃ t, exec .layout (block 6 6 0 []) = .next t ∧ t.status = 0x12) ∧
    ∃ t, exec .syndrome (block 6 0 0 []) = .next t ∧ t.status = 0x52 :=
  ⟨next_of_status (by decide +kernel), next_of_status (by decide +kernel)⟩

/-- An UNCORRECTABLE completion of each command that makes one, and a RANGE. -/
theorem witness_FailureLeavesNoOutput :
    (seen (exec .correct (block 6 11 0x8000000B [0x351]))).map Prod.fst = some 0x42 ∧
    (seen (exec .decode (block 6 11 0 [0x371]))).map Prod.fst = some 0x42 ∧
    (seen (exec .encode (block 6 7 0 []))).map Prod.fst = some 0x62 := by decide +kernel

theorem witness_CompletionFrame : ∃ t, exec .encode (block 6 6 0 [0x15]) = .next t := ⟨_, encoded_of_encode⟩

/-- Two states that differ in their results, flags and queue. -/
theorem witness_ResultsDependOnOperandsOnly :
    SameOperands (block 6 6 0 [0x15]) { driven (block 6 6 0 [0x15]) [.poll] with res0 := 5, ovr := true } ∧
    ∃ t, exec .encode (block 6 6 0 [0x15]) = .next t := ⟨⟨rfl, rfl, rfl, fun _ _ => rfl⟩, _, encoded_of_encode⟩

/-- An issue; a completion; a write to STATUS. -/
theorem witness_HandshakeChanges :
    (∃ t, step (driven State.reset [.drive (writeCycle 0x00000 1)]) = .next t ∧ t.status = 0x01) ∧
    (∃ t, step (flying State.reset 7 0 []) = .next t ∧ t.status = 0x52) ∧
    ∃ t, step (driven { State.reset with done := true } [.drive (writeCycle 0x00004 2)]) = .next t ∧ t.status = 0x00 :=
  ⟨next_of_status (by decide +kernel), next_of_status (by decide +kernel), next_of_status (by decide +kernel)⟩

theorem witness_OverrunSticky :
    (∃ t, step (flying State.reset 7 1 [.drive (writeCycle 0x00008 1)]) = .next t ∧ t.status = 0x05) ∧
    ∃ t, step (driven { State.reset with ovr := true } [.drive (writeCycle 0x00004 4)]) = .next t ∧ t.status = 0x00 :=
  ⟨next_of_status (by decide +kernel), next_of_status (by decide +kernel)⟩

theorem witness_ConfigurationConstant : ∃ t, step (driven State.reset [.drive resetCycle]) = .next t ∧ t.status = 0x00 :=
  next_of_status (by decide +kernel)

theorem witness_ResultsStayReadable :
    encoded.busy = false ∧ ¬ ResetNext (driven encoded [.drive (readCycle 0x20000)]) ∧
    ∃ t, step (driven encoded [.drive (writeCycle 0x00000 1)]) = .next t ∧ t.status = 0x01 :=
  ⟨by decide +kernel, drives_not_reset _ _, next_of_status (by decide +kernel)⟩

/-- A state with operands and output in its buffers, and a command to issue, meets the invariant and steps. -/
def offered : State := driven encoded [.drive (writeCycle 0x00000 1)]

theorem witness_StepKeepsInvariant : offered.Inv ∧ ∃ t, step offered = .next t ∧ t.status = 0x01 := by
  have h1 : ∀ j < bufferWords offered.cfg, ∀ t < 4,
      (Memory.lookup offered.mem (inBase + 4 * j + t)).isSome = offered.inWritten j := by decide +kernel
  have h2 : ∀ i < 32 * bufferWords offered.cfg, nMax offered.cfg ≤ i → offered.inBit i = false := by decide +kernel
  have h3 : ∀ i < 32 * bufferWords offered.cfg, offered.outLen.toNat ≤ i → offered.outBit i = false := by decide +kernel
  exact ⟨⟨by decide +kernel, by decide +kernel, h1, fun i hi hj => h2 i hj hi, by decide +kernel, fun i hi hj => h3 i hj hi,
    by decide +kernel, by decide +kernel, by decide +kernel, by decide +kernel⟩, next_of_status (by decide +kernel)⟩

end Sys2Proof.Tests
end

section
/-! PROOFS. The scope of the block (00_scope.md): a command in flight completes within its latency, what it computes depends on
its operands alone, and the buffers fit their windows. -/

namespace Sys2Proof.Machine

/-! Cycles with the ports idle -/

/-- A cycle with an empty host queue: no read data, then the progress of what was in flight. -/
theorem step_of_host_nil {s : State} (h : s.host = []) : step s = { s with rdata := none }.blockPart s.inflight := by
  simp only [step, clockCycle, State.hostPart, h, resetDriven]

theorem cycles_one (s : State) : cycles 1 s = step s := by
  rw [cycles_succ]
  cases step s <;> rfl

theorem completionStep_of_command {s : State} {i : Instr} (h : decodeCmd s.cmd = .command i) :
    s.completionStep = exec i s := by
  simp only [State.completionStep, h]

/-- The last cycle of a command, the ports idle, is its completion by exec. -/
theorem step_of_inflight_zero {s : State} {i : Instr} (hf : s.inflight = some 0) (hh : s.host = [])
    (hi : decodeCmd s.cmd = .command i) : step s = exec i { s with rdata := none } := by
  rw [step_of_host_nil hh, hf]
  exact completionStep_of_command hi

/-- A cycle of waiting, the ports idle, takes one off the cycles left. -/
theorem step_of_inflight_succ {s : State} {k : Nat} (hf : s.inflight = some (k + 1)) (hh : s.host = []) :
    step s = .next { s with inflight := some k, rdata := none } := by
  rw [step_of_host_nil hh, hf]
  rfl

/-- Settles O22, by induction on the cycles left: each waits in place until the last one completes. -/
theorem completesWithinLatency : Obligations.CompletesWithinLatency := by
  intro k
  induction k with
  | zero =>
    intro s i hf hh hi
    rw [cycles_one, step_of_inflight_zero hf hh hi, ← hf]
  | succ k ih =>
    intro s i hf hh hi
    rw [cycles_succ, step_of_inflight_succ hf hh]
    exact ih { s with inflight := some k, rdata := none } i rfl hh hi

/-! The operands decide the results (00_scope.md R16) -/

/-- Settles O52: both states end in the same completion, and what a completion shows of itself does not look at the state. -/
theorem resultsDependOnOperandsOnly : Obligations.ResultsDependOnOperandsOnly := by
  intro i s s' t hs ht
  rcases exec_congr i hs with ⟨hfault, _⟩ | ⟨c, hc, hc'⟩
  · rw [hfault] at ht
    cases ht
  · rw [hc] at ht
    cases ht
    refine ⟨s'.complete c, hc', rfl, rfl, rfl, rfl, rfl, fun j hj => ?_⟩
    have hj' : j < nMax s'.cfg := hs.cfg ▸ hj
    rw [complete_outBit s c hj, complete_outBit s' c hj']

/-! The size of the buffers (00_scope.md R7, R9) -/

/-- No buffer word lies wholly at N_MAX and above. -/
theorem bufferWords_bits_lt (cfg : Config) : 32 * bufferWords cfg < nMax cfg + 32 := by
  simp only [bufferWords]
  omega

/-- Settles O24: the bounds of N_MAX and W, and that W words hold N_MAX bits with less than a word to spare. -/
theorem buffersFitWindows : Obligations.BuffersFitWindows := fun cfg =>
  ⟨nMax_le cfg, bufferWords_le cfg, nMax_le_of_bufferWords_le le_rfl, bufferWords_bits_lt cfg⟩

end Sys2Proof.Machine
end

section
/-! PROOFS. The state of the block (10_state.md): what a step can do to each register and flag, the invariant every step
keeps, and when a command raises the model fault. -/

namespace Sys2Proof.Machine

/-! What the host's part of a cycle does to single fields -/

theorem hostEffect_cfg {s u : State} (h : HostEffect s u) : u.cfg = s.cfg := by
  cases h <;> rfl

/-- Only an issue touches the command in flight, and it needs BUSY = 0. -/
theorem hostEffect_inflight {s u : State} (h : HostEffect s u) (hb : s.busy = true) : u.inflight = s.inflight := by
  cases h with
  | issue v host idle write => simp [idle] at hb
  | _ => rfl

theorem hostEffect_busy_rise {s u : State} (h : HostEffect s u) (hs : s.busy = false) (hu : u.busy = true) :
    ∃ v, WriteNext s 0x00000 v := by
  cases h with
  | issue v host idle write => exact ⟨v, write⟩
  | _ => exact absurd (hs.symm.trans hu) Bool.false_ne_true

/-- No transaction sets DONE. -/
theorem hostEffect_done_of {s u : State} (h : HostEffect s u) (hu : u.done = true) : s.done = true := by
  cases h with
  | status v host write => exact (Bool.and_eq_true_iff.1 hu).1
  | issue v host idle write => exact absurd hu Bool.false_ne_true
  | _ => exact hu

theorem hostEffect_done_fall {s u : State} (h : HostEffect s u) (hs : s.done = true) (hu : u.done = false) :
    (∃ v, WriteNext s 0x00000 v) ∨ ∃ v, WriteNext s 0x00004 v ∧ v.getLsbD 1 = true := by
  cases h with
  | status v host write => exact .inr ⟨v, write, by simpa [hs] using hu⟩
  | issue v host idle write => exact .inl ⟨v, write⟩
  | _ => exact absurd (hu.symm.trans hs) Bool.false_ne_true

theorem hostEffect_ovr_rise {s u : State} (h : HostEffect s u) (hs : s.ovr = false) (hu : u.ovr = true) :
    s.busy = true ∧ ∃ a v, WriteNext s a v ∧
      (a = 0x00000 ∨ a = 0x00008 ∨ a = 0x0000C ∨ ∃ j, j < bufferWords s.cfg ∧ a.toNat = 0x10000 + 4 * j) := by
  cases h with
  | dropped a v host busy write names => exact ⟨busy, a, v, write, names⟩
  | status v host write => exact absurd (hs.symm.trans (Bool.and_eq_true_iff.1 hu).1) Bool.false_ne_true
  | _ => exact absurd (hs.symm.trans hu) Bool.false_ne_true

theorem hostEffect_ovr_fall {s u : State} (h : HostEffect s u) (hs : s.ovr = true) (hu : u.ovr = false) :
    ∃ v, WriteNext s 0x00004 v ∧ v.getLsbD 2 = true := by
  cases h with
  | status v host write => exact ⟨v, write, by simpa [hs] using hu⟩
  | dropped a v host busy write names => exact absurd hu.symm Bool.false_ne_true
  | _ => exact absurd (hu.symm.trans hs) Bool.false_ne_true

/-! A reset cycle -/

/-- A reset cycle leaves the reset state, but for the read port, the queue and the count of draws. -/
theorem resetPart_eq (s : State) (p : PortIn) (rest : List HostStep) :
    ∃ r d, s.resetPart p rest = { s.afterReset with rdata := r, host := rest, draws := d } := by
  unfold State.resetPart
  cases p.re with
  | true => exact ⟨_, _, rfl⟩
  | false => exact ⟨_, _, rfl⟩

/-! The registers and flags over a step -/

/-- Settles O21: the host's part leaves them alone while BUSY = 1, and a completion writes only OUT. -/
theorem operandsHeldInFlight : Obligations.OperandsHeldInFlight := by
  intro s t hb hr h
  rcases step_cases h with ⟨p, rest, hh, hp, _⟩ | ⟨u, _, _, he, hu⟩
  · exact absurd ⟨p, rest, hh, hp⟩ hr
  · obtain ⟨_, hcmd, harg, harg2, hmem⟩ := hostEffect_busy he hb
    rcases hu with ⟨_, rfl⟩ | ⟨k, _, rfl⟩ | ⟨_, _, c, rfl⟩
    · exact ⟨hcmd, harg, harg2, fun a _ => by rw [hmem]⟩
    · exact ⟨hcmd, harg, harg2, fun a _ => by rw [hmem]⟩
    · exact ⟨hcmd, harg, harg2, fun a ha => by rw [complete_readByte u c (.inl ha), hmem]⟩

/-- Settles O53: BUSY and DONE in a reset, and in each way the host's part of a cycle can go on. -/
theorem handshakeChanges : Obligations.HandshakeChanges := by
  intro s t h
  rcases step_cases h with ⟨p, rest, hh, hp, rfl⟩ | ⟨u, _, _, he, hu⟩
  · have hr : ResetNext s := ⟨p, rest, hh, hp⟩
    obtain ⟨r, d, ht⟩ := resetPart_eq s p rest
    rw [ht]
    exact ⟨fun _ hb => absurd hb Bool.false_ne_true, fun _ _ => .inl hr, fun _ hd => absurd hd Bool.false_ne_true,
      fun _ _ => .inl hr⟩
  rcases hu with ⟨hf, rfl⟩ | ⟨k, hf, rfl⟩ | ⟨hf, _, c, rfl⟩
  · refine ⟨hostEffect_busy_rise he, fun hb => ?_, fun hs ht => ?_, fun hs ht => .inr (hostEffect_done_fall he hs ht)⟩
    · simp [State.busy, hf] at hb
    · exact absurd (hs.symm.trans (hostEffect_done_of he ht)) Bool.false_ne_true
  · refine ⟨fun hb => ?_, fun _ hb => absurd hb.symm Bool.false_ne_true, fun hs ht => ?_,
      fun hs ht => .inr (hostEffect_done_fall he hs ht)⟩
    · simp [State.busy, hf] at hb
    · exact absurd (hs.symm.trans (hostEffect_done_of he ht)) Bool.false_ne_true
  · exact ⟨fun _ hb => absurd hb Bool.false_ne_true, fun _ _ => .inr hf, fun _ _ => hf,
      fun _ hd => absurd hd.symm Bool.false_ne_true⟩

/-- Settles O54: what the block does after the host's part leaves OVR alone. -/
theorem overrunSticky : Obligations.OverrunSticky := by
  intro s t h
  rcases step_cases h with ⟨p, rest, hh, hp, rfl⟩ | ⟨u, _, _, he, hu⟩
  · obtain ⟨r, d, ht⟩ := resetPart_eq s p rest
    rw [ht]
    exact ⟨fun _ ho => absurd ho Bool.false_ne_true, fun _ _ => .inl ⟨p, rest, hh, hp⟩⟩
  · have hovr : t.ovr = u.ovr := by
      rcases hu with ⟨_, rfl⟩ | ⟨k, _, rfl⟩ | ⟨_, _, c, rfl⟩ <;> rfl
    rw [hovr]
    exact ⟨hostEffect_ovr_rise he, fun hs ht => .inr (hostEffect_ovr_fall he hs ht)⟩

/-- No step changes DATA_MAX. -/
theorem step_cfg {s t : State} (h : step s = .next t) : t.cfg = s.cfg := by
  rcases step_cases h with ⟨p, rest, _, _, rfl⟩ | ⟨u, _, _, he, hu⟩
  · obtain ⟨r, d, ht⟩ := resetPart_eq s p rest
    rw [ht, afterReset_cfg]
  · have hcfg : t.cfg = u.cfg := by
      rcases hu with ⟨_, rfl⟩ | ⟨k, _, rfl⟩ | ⟨_, _, c, rfl⟩ <;> rfl
    rw [hcfg, hostEffect_cfg he]

/-- Settles O55: the registers are computed from DATA_MAX, and both numbers are below 2^32. -/
theorem configurationConstant : Obligations.ConfigurationConstant := by
  intro s t h
  have hcfg := step_cfg h
  have hd : dataMax s.cfg < 2 ^ 32 := Nat.lt_of_le_of_lt (dataMax_le_nMax _) (nMax_lt _)
  refine ⟨hcfg, ?_, ?_, ?_, ?_⟩
  · rw [State.readCsr, giveRead_rdata, hcfg]
  · rw [BitVec.toNat_ofNat, Nat.mod_eq_of_lt hd]
  · rw [State.readCsr, giveRead_rdata, hcfg]
  · rw [BitVec.toNat_ofNat, Nat.mod_eq_of_lt (nMax_lt _)]

/-! The STATUS register -/

theorem status_getLsbD (s : State) (b : Nat) : s.status.getLsbD b =
    if b = 0 then s.busy else if b = 1 then s.done else if b = 2 then s.ovr else if b = 3 then false
    else (resultCode s.result).getLsbD (b - 4) := by
  simp only [State.status, BitVec.getLsbD_append]
  rcases b with _ | _ | _ | _ | b
  · simp
  · simp
  · simp
  · simp
  · simpa using BitVec.lt_of_getLsbD

theorem status_result (s : State) : s.status.extractLsb' 4 4 = resultCode s.result := by
  refine BitVec.eq_of_getLsbD_eq fun i hi => ?_
  rw [BitVec.getLsbD_extractLsb', status_getLsbD, if_neg (by omega), if_neg (by omega), if_neg (by omega),
    if_neg (by omega), Nat.add_sub_cancel_left, decide_eq_true hi, Bool.true_and]

theorem status_high (s : State) {b : Nat} (hb : 8 ≤ b) : s.status.getLsbD b = false := by
  rw [status_getLsbD, if_neg (by omega), if_neg (by omega), if_neg (by omega), if_neg (by omega),
    BitVec.getLsbD_of_ge _ _ (by omega)]

/-- A write to STATUS, whatever BUSY is. -/
theorem hostPart_writeStatus {s : State} {v : Word} (h : WriteNext s 0x00004 v) :
    s.hostPart = .next { s with
      done := s.done && !v.getLsbD 1, ovr := s.ovr && !v.getLsbD 2, rdata := none, host := s.host.tail } :=
  hostPart_write (by decide) h

/-- Settles O8: the word bit by bit, the code of each result, and the write. -/
theorem statusRegister : Obligations.StatusRegister := by
  refine ⟨fun s => ⟨status_getLsbD s 0, status_getLsbD s 1, status_getLsbD s 2, status_getLsbD s 3, status_result s,
    fun b => status_high s⟩, fun s x hx hr => ?_, by decide, fun s v => hostPart_writeStatus⟩
  rw [status_result, hr]
  fin_cases hx <;> rfl

/-! The checks of an operand, case by case, and the model fault -/

theorem wellFormedLength_eq_false {n : Nat} : wellFormedLength n = false ↔ n = 0 ∨ ∃ k, n = 2 ^ k + 1 := by
  rcases n with _ | n
  · simp [wellFormedLength]
  · simp [wellFormedLength, isPow2_iff]

theorem operandWritten_eq_false {s : State} {n : Nat} :
    s.operandWritten n = false ↔ ∃ j, 32 * j < n ∧ s.inWritten j = false := by
  rw [← Bool.not_eq_true, operandWritten_iff]
  simp

/-- What the check of a data operand answers, and when. -/
theorem dataOperand_cases (s : State) :
    (dataMax s.cfg < s.argNat ∧ s.dataOperand = .fails .range) ∨
    (s.argNat ≤ dataMax s.cfg ∧ s.operandWritten s.argNat = false ∧ s.dataOperand = .unwritten) ∨
    (s.argNat ≤ dataMax s.cfg ∧ s.operandWritten s.argNat = true ∧ s.dataOperand = .ready (s.inBits s.argNat)) := by
  rcases Nat.lt_or_ge (dataMax s.cfg) s.argNat with hr | hr
  · exact .inl ⟨hr, dataOperand_range hr⟩
  cases hw : s.operandWritten s.argNat with
  | false => exact .inr (.inl ⟨hr, rfl, dataOperand_unwritten hr hw⟩)
  | true => exact .inr (.inr ⟨hr, rfl, dataOperand_ready hr hw⟩)

/-- What the check of a codeword operand answers, and when. -/
theorem codewordOperand_cases (s : State) :
    (nMax s.cfg < s.argNat ∧ s.codewordOperand = .fails .range) ∨
    (s.argNat ≤ nMax s.cfg ∧ wellFormedLength s.argNat = false ∧ s.codewordOperand = .fails .malformed) ∨
    (s.argNat ≤ nMax s.cfg ∧ wellFormedLength s.argNat = true ∧ s.operandWritten s.argNat = false ∧
      s.codewordOperand = .unwritten) ∨
    (s.argNat ≤ nMax s.cfg ∧ wellFormedLength s.argNat = true ∧ s.operandWritten s.argNat = true ∧
      s.codewordOperand = .ready (s.inBits s.argNat)) := by
  rcases Nat.lt_or_ge (nMax s.cfg) s.argNat with hr | hr
  · exact .inl ⟨hr, codewordOperand_range hr⟩
  cases hf : wellFormedLength s.argNat with
  | false => exact .inr (.inl ⟨hr, rfl, codewordOperand_malformed hr hf⟩)
  | true =>
    cases hw : s.operandWritten s.argNat with
    | false => exact .inr (.inr (.inl ⟨hr, rfl, rfl, codewordOperand_unwritten hr hf hw⟩))
    | true => exact .inr (.inr (.inr ⟨hr, rfl, rfl, codewordOperand_ready hr hf hw⟩))

theorem dataOperand_eq_unwritten {s : State} :
    s.dataOperand = .unwritten ↔ s.argNat ≤ dataMax s.cfg ∧ s.operandWritten s.argNat = false := by
  refine ⟨fun h => ?_, fun ⟨hr, hw⟩ => dataOperand_unwritten hr hw⟩
  rcases dataOperand_cases s with ⟨_, hx⟩ | ⟨hr, hw, _⟩ | ⟨_, _, hx⟩
  · rw [hx] at h; cases h
  · exact ⟨hr, hw⟩
  · rw [hx] at h; cases h

theorem codewordOperand_eq_unwritten {s : State} : s.codewordOperand = .unwritten ↔
    s.argNat ≤ nMax s.cfg ∧ wellFormedLength s.argNat = true ∧ s.operandWritten s.argNat = false := by
  refine ⟨fun h => ?_, fun ⟨hr, hf, hw⟩ => codewordOperand_unwritten hr hf hw⟩
  rcases codewordOperand_cases s with ⟨_, hx⟩ | ⟨_, _, hx⟩ | ⟨hr, hf, hw, _⟩ | ⟨_, _, _, hx⟩
  · rw [hx] at h; cases h
  · rw [hx] at h; cases h
  · exact ⟨hr, hf, hw⟩
  · rw [hx] at h; cases h

theorem finish_eq_fault {s : State} {x : OperandCheck (List Bool)} {rule : List Bool → Completion} :
    s.finish x rule = .fault .unwrittenOperand ↔ x = .unwritten := by
  cases x <;> simp [State.finish]

/-- A layout command never raises the model fault. -/
theorem exec_ne_fault {i : Instr} {s : State} (h : readsIn i = false) : exec i s ≠ .fault .unwrittenOperand := by
  cases i with
  | layout => simp only [exec, execLayout]; split <;> exact nofun
  | pclass => simp only [exec, execPclass]; split <;> exact nofun
  | dpos => simp only [exec, execDpos]; split <;> exact nofun
  | encode | syndrome | correct | decode => cases h

theorem exec_encode_eq_fault {s : State} :
    exec .encode s = .fault .unwrittenOperand ↔ s.dataOperand = .unwritten := finish_eq_fault

theorem exec_codeword_eq_fault {i : Instr} {s : State} (h : takesCodeword i = true) :
    exec i s = .fault .unwrittenOperand ↔ s.codewordOperand = .unwritten := by
  cases i with
  | layout | pclass | dpos | encode => cases h
  | syndrome | correct | decode => exact finish_eq_fault

theorem unwritten_encode_iff {s : State} : Unwritten .encode s ↔ s.dataOperand = .unwritten := by
  rw [dataOperand_eq_unwritten, operandWritten_eq_false, ← Nat.not_lt]
  simp [Unwritten, readsIn, OutOfRange, Malformed, takesCodeword, State.argNat]

theorem outOfRange_codeword_iff {i : Instr} {s : State} (h : takesCodeword i = true) :
    OutOfRange i s ↔ nMax s.cfg < s.arg.toNat := by
  cases i with
  | layout | pclass | dpos | encode => cases h
  | syndrome | correct | decode => exact Iff.rfl

theorem readsIn_of_takesCodeword {i : Instr} (h : takesCodeword i = true) : readsIn i = true := by
  cases i with
  | layout | pclass | dpos => cases h
  | encode | syndrome | correct | decode => rfl

theorem unwritten_codeword_iff {i : Instr} {s : State} (h : takesCodeword i = true) :
    Unwritten i s ↔ s.codewordOperand = .unwritten := by
  have hmal : Malformed i s ↔ s.arg.toNat ≤ nMax s.cfg ∧ wellFormedLength s.arg.toNat = false := by
    simp only [Malformed, h, true_and, wellFormedLength_eq_false]
  rw [codewordOperand_eq_unwritten, operandWritten_eq_false, Unwritten, outOfRange_codeword_iff h, hmal, Nat.not_lt,
    not_and, Bool.not_eq_false, readsIn_of_takesCodeword h, eq_self, true_and]
  exact ⟨fun ⟨hle, hwf, hj⟩ => ⟨hle, hwf hle, hj⟩, fun ⟨hle, hwf, hj⟩ => ⟨hle, fun _ => hwf, hj⟩⟩

theorem exec_eq_fault_iff (i : Instr) (s : State) : exec i s = .fault .unwrittenOperand ↔ Unwritten i s := by
  cases i with
  | layout | pclass | dpos => exact iff_of_false (exec_ne_fault rfl) fun hu => absurd hu.1 Bool.false_ne_true
  | encode => rw [exec_encode_eq_fault, unwritten_encode_iff]
  | syndrome | correct | decode => rw [exec_codeword_eq_fault rfl, unwritten_codeword_iff rfl]

/-- Settles O48: the fault by the checks of each kind of command; a command that does not fault completes. -/
theorem faultsExactlyOnUnwrittenOperand : Obligations.FaultsExactlyOnUnwrittenOperand := by
  refine fun i s => ⟨exec_eq_fault_iff i s, fun hu => ?_⟩
  rcases exec_cases i s with hf | ⟨c, hc⟩
  · exact absurd ((exec_eq_fault_iff i s).1 hf) hu
  · exact ⟨_, hc⟩

/-! What a completion writes -/

/-- The code of a completion says that the command ended, and its output fits the OUT buffer (10_state.md R37, R44). -/
structure Completion.Fits (c : Completion) (cfg : Config) : Prop where
  result : c.result ≠ .none
  length : c.out.length ≤ nMax cfg

theorem fits_fail (cfg : Config) {code : Result} (h : code ≠ .none) : Completion.Fits { result := code } cfg :=
  ⟨h, Nat.zero_le _⟩

theorem fits_layoutReport {cfg : Config} (l : Layout) {out : List Bool} (h : out.length ≤ nMax cfg) :
    (layoutReport l out).Fits cfg := ⟨nofun, h⟩

theorem fits_classReport (cfg : Config) (p : Nat) : (classReport p).Fits cfg := by
  unfold classReport
  split
  · exact ⟨nofun, Nat.zero_le _⟩
  · split <;> exact ⟨nofun, Nat.zero_le _⟩

theorem fits_checkReport {cfg : Config} {code : Result} {out : List Bool} (s : Nat) (o : Bool) (n : Nat)
    (hcode : code ≠ .none) (hout : out.length ≤ nMax cfg) : (checkReport code s o n out).Fits cfg := ⟨hcode, hout⟩

theorem fix_result_ne_none {c c' : List Bool} {k : Diagnosis} {code : Result} (h : fix c k = some (code, c')) :
    code ≠ .none := by
  cases k <;> cases h <;> exact nofun

theorem fits_correction {cfg : Config} {post : List Bool → List Bool} {s : Nat} {o : Bool} {c : List Bool}
    (hpost : ∀ c', c'.length = c.length → (post c').length ≤ nMax cfg) : (correction post s o c).Fits cfg := by
  unfold correction
  split
  · rename_i code c' hfix
    exact fits_checkReport _ _ _ (fix_result_ne_none hfix) (hpost c' (fix_length hfix))
  · exact fits_checkReport _ _ _ nofun (Nat.zero_le _)

/-- A data operand fails with a code, and one that is ready fits. -/
theorem dataOperand_answer (s : State) :
    (∀ code, s.dataOperand = .fails code → code ≠ .none) ∧
    ∀ d, s.dataOperand = .ready d → d.length ≤ dataMax s.cfg := by
  rcases dataOperand_cases s with ⟨_, hx⟩ | ⟨_, _, hx⟩ | ⟨hr, _, hx⟩ <;> rw [hx]
  · exact ⟨fun _ h => by cases h; exact nofun, nofun⟩
  · exact ⟨nofun, nofun⟩
  · exact ⟨nofun, fun _ h => by cases h; rwa [inBits_length]⟩

/-- A codeword operand fails with a code, and one that is ready fits. -/
theorem codewordOperand_answer (s : State) :
    (∀ code, s.codewordOperand = .fails code → code ≠ .none) ∧
    ∀ c, s.codewordOperand = .ready c → c.length ≤ nMax s.cfg := by
  rcases codewordOperand_cases s with ⟨_, hx⟩ | ⟨_, _, hx⟩ | ⟨_, _, _, hx⟩ | ⟨hr, _, _, hx⟩ <;> rw [hx]
  · exact ⟨fun _ h => by cases h; exact nofun, nofun⟩
  · exact ⟨fun _ h => by cases h; exact nofun, nofun⟩
  · exact ⟨nofun, nofun⟩
  · exact ⟨nofun, fun _ h => by cases h; rwa [inBits_length]⟩

/-- A command with an operand check completes with what fits, if its failures have a code and its rule fits. -/
theorem finish_fits {s t : State} {x : OperandCheck (List Bool)} {rule : List Bool → Completion}
    (hfails : ∀ code, x = .fails code → code ≠ .none) (hready : ∀ y, x = .ready y → (rule y).Fits s.cfg)
    (h : s.finish x rule = .next t) : ∃ c, t = s.complete c ∧ c.Fits s.cfg := by
  rcases finish_cases s x rule with ⟨hf, _⟩ | ⟨c, hc, ⟨code, hx, rfl⟩ | ⟨y, hx, rfl⟩⟩
  · rw [hf] at h; cases h
  · rw [hc] at h; cases h
    exact ⟨_, rfl, fits_fail _ (hfails code hx)⟩
  · rw [hc] at h; cases h
    exact ⟨_, rfl, hready y hx⟩

theorem finish_codeword_fits {s t : State} {rule : List Bool → Completion}
    (hrule : ∀ c, c.length ≤ nMax s.cfg → (rule c).Fits s.cfg)
    (h : s.finish s.codewordOperand rule = .next t) : ∃ c, t = s.complete c ∧ c.Fits s.cfg :=
  have ⟨hfails, hready⟩ := codewordOperand_answer s
  finish_fits hfails (fun c hx => hrule c (hready c hx)) h

/-- Every completion of a command fits. -/
theorem exec_fits {i : Instr} {s t : State} (h : exec i s = .next t) : ∃ c, t = s.complete c ∧ c.Fits s.cfg := by
  cases i with
  | layout =>
    simp only [exec, execLayout] at h
    split at h <;> cases h
    · exact ⟨_, rfl, fits_fail _ nofun⟩
    · exact ⟨_, rfl, fits_layoutReport _ (Nat.zero_le _)⟩
  | pclass =>
    simp only [exec, execPclass] at h
    split at h <;> cases h
    · exact ⟨_, rfl, fits_fail _ nofun⟩
    · exact ⟨_, rfl, fits_classReport _ _⟩
  | dpos =>
    simp only [exec, execDpos] at h
    split at h <;> cases h
    · exact ⟨_, rfl, fits_fail _ nofun⟩
    · exact ⟨_, rfl, ⟨nofun, Nat.zero_le _⟩⟩
  | encode =>
    obtain ⟨hfails, hready⟩ := dataOperand_answer s
    refine finish_fits hfails (fun d hx => fits_layoutReport _ ?_) h
    rw [enc_length]
    exact layout_n_le (hready d hx)
  | syndrome =>
    refine finish_codeword_fits (fun c _ => fits_checkReport _ _ _ ?_ (Nat.zero_le _)) h
    exact nofun
  | correct => exact finish_codeword_fits (fun c hc => fits_correction fun c' hl => hl ▸ hc) h
  | decode =>
    refine finish_codeword_fits (fun c hc => fits_correction fun c' hl => ?_) h
    exact le_trans (extract_length_le _ _) (le_trans (Nat.sub_le _ _) hc)

theorem completionStep_fits {s t : State} (h : s.completionStep = .next t) : ∃ c, t = s.complete c ∧ c.Fits s.cfg := by
  unfold State.completionStep at h
  split at h
  · exact exec_fits h
  · cases h
    exact ⟨_, rfl, fits_fail _ nofun⟩

/-! The words of the windows after a store and a completion -/

theorem inWord_below_outBase {cfg : Config} {j : Nat} (h : j < bufferWords cfg) : inBase + 4 * j + 4 ≤ outBase := by
  have := bufferWords_le cfg
  simp only [inBase, outBase]
  omega

theorem inWord_congr {s t : State} (h : t.mem = s.mem) (j : Nat) : t.inWord j = s.inWord j := by
  rw [State.inWord, h, State.inWord]

theorem outWord_congr {s t : State} (h : t.mem = s.mem) (j : Nat) : t.outWord j = s.outWord j := by
  rw [State.outWord, h, State.outWord]

theorem storeIn_inWord_same (s : State) (j : Nat) (v : Word) :
    (s.storeIn j v).inWord j = some (v &&& liveMask s.cfg j) := readWord_writeWord_same _ _ _

theorem storeIn_inWord_ne (s : State) {j k : Nat} (v : Word) (h : k ≠ j) : (s.storeIn j v).inWord k = s.inWord k :=
  readWord_writeWord_ne _ _ _ _ (by omega)

/-- A store to IN leaves OUT alone. -/
theorem storeIn_outWord (s : State) {j : Nat} (k : Nat) (v : Word) (h : j < bufferWords s.cfg) :
    (s.storeIn j v).outWord k = s.outWord k := by
  have := inWord_below_outBase h
  rw [State.outWord, storeIn_mem, readWord_writeWord_ne _ _ _ _ (by omega), State.outWord]

/-- OUT beyond the output is 0 after a completion, up to the end of its last word (10_state.md R52). -/
theorem complete_outBit_tail (s : State) {c : Completion} {i : Nat} (h : c.out.length ≤ i) (hi : i < 32 * bufferWords s.cfg) :
    (s.complete c).outBit i = false := by
  have hlt : i % 32 < 32 := Nat.mod_lt _ (by omega)
  rw [State.outBit, complete_outWord s c (by omega), getLsbD_outputWord, Nat.div_add_mod, bitAt_eq_false h]
  simp

/-! The invariant -/

/-- A state with the buffers of one that meets the invariant meets it if its flags do. -/
theorem inv_of_same_buffers {s t : State} (h : s.Inv) (hcfg : t.cfg = s.cfg) (hmem : t.mem = s.mem)
    (hlen : t.outLen = s.outLen) (hvalid : t.outValid = s.outValid) (hbusy : t.busy = true → t.done = false ∧ t.result = .none)
    (hdone : t.done = true → t.result ≠ .none ∧ t.outValid = true) : t.Inv where
  canonical := hmem ▸ h.canonical
  placed := by rw [hmem, hcfg]; exact h.placed
  whole := by
    simp only [State.inWritten, inWord_congr hmem]
    rw [hmem, hcfg]
    exact h.whole
  inTail := by
    simp only [State.inBit, inWord_congr hmem]
    rw [hcfg]
    exact h.inTail
  outLenBound := by rw [hlen, hcfg]; exact h.outLenBound
  outTail := by
    simp only [State.outBit, outWord_congr hmem]
    rw [hlen, hcfg]
    exact h.outTail
  outBlank := by rw [hvalid, hlen, hmem]; exact h.outBlank
  busyNotDone := fun hb => (hbusy hb).1
  busyNoResult := fun hb => (hbusy hb).2
  doneResult := hdone

/-- The flags of a state that meets the invariant, as `inv_of_same_buffers` asks for them. -/
theorem State.Inv.busyFlags {s : State} (h : s.Inv) (hb : s.busy = true) : s.done = false ∧ s.result = .none :=
  ⟨h.busyNotDone hb, h.busyNoResult hb⟩

theorem outWord_of_mem_nil {s : State} (h : s.mem = []) (j : Nat) : s.outWord j = 0 := by
  have hb : ∀ t, Memory.readByte [] (outBase + 4 * j + t) = some 0 := fun t => if_pos (by omega)
  have h0 := hb 0
  rw [Nat.add_zero] at h0
  simp only [State.outWord, h, Memory.readWord, hb, h0]
  rfl

/-- An idle state with nothing in its buffers meets the invariant. -/
theorem inv_of_empty {s : State} (hmem : s.mem = []) (hlen : s.outLen = 0) (hidle : s.inflight = none)
    (hdone : s.done = false) : s.Inv where
  canonical := hmem ▸ wf_nil
  placed := by simp [hmem]
  whole := fun j hj t _ => by
    rw [inWritten_of_mem_nil hmem (lt_of_lt_of_le hj (bufferWords_le _)), hmem]
    rfl
  inTail := fun i _ hi => by
    have hj : i / 32 < 16384 := lt_of_lt_of_le (by omega) (bufferWords_le s.cfg)
    have hw : s.inWord (i / 32) = none := by simpa [State.inWritten] using inWritten_of_mem_nil hmem hj
    simp [State.inBit, hw]
  outLenBound := by simp [hlen]
  outTail := fun i _ _ => by simp [State.outBit, outWord_of_mem_nil hmem]
  outBlank := fun _ => ⟨hlen, by simp [hmem]⟩
  busyNotDone := fun _ => hdone
  busyNoResult := fun hb => by simp [State.busy, hidle] at hb
  doneResult := fun hd => by simp [hdone] at hd

/-- Settles O7: after reset the buffers are empty. -/
theorem resetMeetsInvariant : Obligations.ResetMeetsInvariant := inv_of_empty rfl rfl rfl rfl

theorem inv_resetPart (s : State) (p : PortIn) (rest : List HostStep) : (s.resetPart p rest).Inv := by
  obtain ⟨r, d, ht⟩ := resetPart_eq s p rest
  rw [ht]
  exact inv_of_empty rfl rfl rfl rfl

/-- A write of an IN word writes all its bytes, and 0 in the bits at N_MAX and above (20_memory.md R76). -/
theorem inv_storeIn {s : State} (h : s.Inv) {j : Nat} (hj : j < bufferWords s.cfg) (v : Word) : (s.storeIn j v).Inv where
  canonical := wf_writeWord _ _ h.canonical
  placed := fun c hc => by
    rcases mem_writeWord hc with hnew | hold
    · exact .inl (by rw [storeIn_cfg]; omega)
    · exact h.placed c hold
  whole := fun k hk t ht => by
    have hout := inWord_below_outBase hk
    rw [lookup_eq_readByte _ (by omega), storeIn_mem, readByte_writeWord, State.inWritten]
    by_cases hkj : k = j
    · subst hkj
      rw [if_pos (by omega), storeIn_inWord_same, Option.isSome_some, Option.isSome_some]
    · rw [if_neg (by omega), storeIn_inWord_ne s v hkj, ← lookup_eq_readByte _ (by omega)]
      exact h.whole k hk t ht
  inTail := fun i hi hlt => by
    by_cases hij : i / 32 = j
    · have hb : i % 32 < 32 := Nat.mod_lt _ (by omega)
      have hdead : ¬ 32 * j + i % 32 < nMax s.cfg := by rw [storeIn_cfg] at hi; omega
      rw [State.inBit, hij, storeIn_inWord_same, Option.getD_some, getLsbD_and_liveMask _ _ _ hb, decide_eq_false hdead,
        Bool.false_and]
    · rw [State.inBit, storeIn_inWord_ne s v hij]
      exact h.inTail i hi hlt
  outLenBound := h.outLenBound
  outTail := fun i hi hlt => by
    rw [State.outBit, storeIn_outWord s _ v hj]
    exact h.outTail i hi hlt
  outBlank := fun hv => by
    refine ⟨(h.outBlank hv).1, fun c hc => ?_⟩
    have hout := inWord_below_outBase hj
    rcases mem_writeWord hc with hnew | hold
    · omega
    · exact (h.outBlank hv).2 c hold
  busyNotDone := h.busyNotDone
  busyNoResult := h.busyNoResult
  doneResult := h.doneResult

/-- The host's part of a cycle keeps the invariant. -/
theorem inv_hostEffect {s u : State} (h : s.Inv) (he : HostEffect s u) : u.Inv := by
  cases he with
  | status v host write =>
    refine inv_of_same_buffers h rfl rfl rfl rfl (fun hb => ?_) fun hd => h.doneResult (Bool.and_eq_true_iff.1 hd).1
    exact ⟨Bool.and_eq_false_iff.2 (.inl (h.busyNotDone hb)), h.busyNoResult hb⟩
  | issue v host idle write =>
    exact inv_of_same_buffers h rfl rfl rfl rfl (fun _ => ⟨rfl, rfl⟩) fun hd => absurd hd Bool.false_ne_true
  | store a j v host idle live write names =>
    have hst := inv_storeIn h live v
    exact inv_of_same_buffers hst rfl rfl rfl rfl hst.busyFlags hst.doneResult
  | quiet | dropped | arg | arg2 => exact inv_of_same_buffers h rfl rfl rfl rfl h.busyFlags h.doneResult

/-- A completion with an output that fits keeps the invariant (10_state.md R52, 60_exceptions.md R262). -/
theorem inv_complete {s : State} (h : s.Inv) {c : Completion} (hc : c.Fits s.cfg) : (s.complete c).Inv := by
  have hlen : (s.complete c).outLen.toNat = c.out.length := by
    rw [complete_outLen, BitVec.toNat_ofNat, Nat.mod_eq_of_lt (lt_of_le_of_lt hc.length (nMax_lt _))]
  have hword : ∀ j < bufferWords s.cfg, (s.complete c).inWord j = s.inWord j := fun j hj =>
    complete_inWord s c (lt_of_lt_of_le hj (bufferWords_le _))
  exact {
    canonical := wf_writeOut _ _ h.canonical
    placed := fun x hx => (mem_writeOut hx).elim .inr (h.placed x)
    whole := fun j hj t ht => by
      have hout := inWord_below_outBase hj
      rw [lookup_eq_readByte _ (by omega), complete_readByte s c (.inl (by omega)), ← lookup_eq_readByte _ (by omega),
        State.inWritten, hword j hj]
      exact h.whole j hj t ht
    inTail := fun i hi hlt => by
      rw [complete_cfg] at hlt
      rw [State.inBit, hword _ (by omega)]
      exact h.inTail i hi hlt
    outLenBound := by rw [hlen]; exact hc.length
    outTail := fun i hi hlt => complete_outBit_tail s (hlen ▸ hi) hlt
    outBlank := fun hv => absurd hv.symm Bool.false_ne_true
    busyNotDone := fun hb => absurd hb Bool.false_ne_true
    busyNoResult := fun hb => absurd hb Bool.false_ne_true
    doneResult := fun _ => ⟨hc.result, rfl⟩ }

/-- A cycle of waiting keeps the invariant: BUSY stays 1. -/
theorem inv_wait {s : State} (h : s.Inv) (hb : s.busy = true) (k : Nat) : ({ s with inflight := some k } : State).Inv :=
  inv_of_same_buffers h rfl rfl rfl rfl (fun _ => h.busyFlags hb) h.doneResult

/-- Settles O57: a reset empties the buffers; otherwise the host's part keeps the invariant, and so does what follows it. -/
theorem stepKeepsInvariant : Obligations.StepKeepsInvariant := by
  intro s t hs h
  rcases step_cases h with ⟨p, rest, _, _, rfl⟩ | ⟨u, _, _, he, hu⟩
  · exact inv_resetPart s p rest
  · have hinv := inv_hostEffect hs he
    rcases hu with ⟨_, rfl⟩ | ⟨k, hf, rfl⟩ | ⟨_, hc, _⟩
    · exact hinv
    · have hb : s.busy = true := busy_eq_true.2 ⟨_, hf⟩
      exact inv_wait hinv (busy_eq_true.2 ⟨_, (hostEffect_inflight he hb).trans hf⟩) k
    · obtain ⟨c, rfl, hfits⟩ := completionStep_fits hc
      exact inv_complete hinv hfits

end Sys2Proof.Machine
end

section
/-! PROOFS. The memory map and the slave port (20_memory.md): what a read and a write of each kind of offset do, which accesses
are refused, and the order of events within a cycle. -/

namespace Sys2Proof.Machine

/-! What a read of each kind of offset returns -/

theorem target_csrOffset (r : Csr) : target (csrOffset r) = .csr r := by cases r <;> rfl

theorem aligned_csrOffset (r : Csr) : aligned (csrOffset r) = true := by cases r <;> rfl

theorem hostPart_readCsr {s : State} {r : Csr} (h : ReadNext s (csrOffset r)) :
    s.hostPart = .next { s.readCsr r with host := s.host.tail } := by
  rw [hostPart_read (aligned_csrOffset r) h, State.busRead, target_csrOffset]

theorem hostPart_readIn {s : State} {a : Offset} {j : Nat} (hj : j < 16384) (ha : a.toNat = inBase + 4 * j)
    (h : ReadNext s a) : s.hostPart = .next { s.readIn j with host := s.host.tail } := by
  rw [hostPart_read (aligned_inWord ha) h, State.busRead, target_inWord hj ha]

theorem hostPart_readOut {s : State} {a : Offset} {j : Nat} (hj : j < 16384) (ha : a.toNat = outBase + 4 * j)
    (h : ReadNext s a) : s.hostPart = .next { s.readOut j with host := s.host.tail } := by
  rw [hostPart_read (aligned_outWord ha) h, State.busRead, target_outWord hj ha]

theorem readResult_busy {s : State} (h : s.busy = true) (v : Word) : s.readResult v = s.drawRead (BitVec.allOnes 32) :=
  if_pos h

/-- A word at W or above has no bits (20_memory.md R76). -/
theorem liveMask_beyond {cfg : Config} {j : Nat} (h : bufferWords cfg ≤ j) : liveMask cfg j = 0#32 := by
  refine BitVec.eq_of_getLsbD_eq fun b hb => ?_
  have hdead : ¬ 32 * j + b < nMax cfg := by have := nMax_le_of_bufferWords_le h; omega
  rw [liveMask, getLsbD_wordFrom, decide_eq_false hdead, Bool.and_false]
  exact BitVec.getLsbD_zero.symm

theorem readIn_beyond {s : State} {j : Nat} (h : bufferWords s.cfg ≤ j) : s.readIn j = s.giveRead 0 := if_pos h

theorem readIn_written {s : State} {j : Nat} {v : Word} (h : j < bufferWords s.cfg) (hv : s.inWord j = some v) :
    s.readIn j = s.giveRead (v &&& liveMask s.cfg j) := by
  rw [State.readIn, if_neg (Nat.not_le.2 h), hv]

theorem readOut_beyond {s : State} {j : Nat} (h : bufferWords s.cfg ≤ j) : s.readOut j = s.giveRead 0 := if_pos h

theorem readOut_unspecified {s : State} {j : Nat} (h : j < bufferWords s.cfg) (hb : (s.busy || !s.outValid) = true) :
    s.readOut j = s.drawRead (liveMask s.cfg j) := by
  rw [State.readOut, if_neg (Nat.not_le.2 h), if_pos hb]

theorem readOut_valid {s : State} {j : Nat} (h : j < bufferWords s.cfg) (hb : (s.busy || !s.outValid) = false) :
    s.readOut j = s.giveRead (s.outWord j &&& liveMask s.cfg j) := by
  rw [State.readOut, if_neg (Nat.not_le.2 h), hb, if_neg Bool.false_ne_true]

/-- A read of IN word j: some word, IN in a word that was written, on the bits below N_MAX (20_memory.md R76). -/
theorem readIn_masked (s : State) (j : Nat) :
    ∃ v d, s.readIn j = { s with rdata := some (v &&& liveMask s.cfg j), draws := d } ∧
      (s.inWritten j = true → s.inWord j = some v) := by
  by_cases hj : bufferWords s.cfg ≤ j
  · refine ⟨(s.inWord j).getD 0, s.draws, ?_, fun hw => ?_⟩
    · rw [readIn_beyond hj, liveMask_beyond hj, BitVec.and_zero]
      rfl
    · obtain ⟨v, hv⟩ := Option.isSome_iff_exists.1 hw
      rw [hv, Option.getD_some]
  cases hv : s.inWord j with
  | some v => exact ⟨v, s.draws, readIn_written (Nat.lt_of_not_le hj) hv, fun _ => rfl⟩
  | none =>
    refine ⟨Config.drawnWord s.draws, s.draws + 1, ?_, fun hw => ?_⟩
    · rw [State.readIn, if_neg hj, hv, State.drawRead]
    · rw [State.inWritten, hv] at hw
      cases hw

/-- A read of OUT word j: some word, OUT once a command has completed and while idle, on the bits below N_MAX
(20_memory.md R78, R81). -/
theorem readOut_masked (s : State) (j : Nat) :
    ∃ v d, s.readOut j = { s with rdata := some (v &&& liveMask s.cfg j), draws := d } ∧
      ((s.busy || !s.outValid) = false → v = s.outWord j) := by
  by_cases hj : bufferWords s.cfg ≤ j
  · refine ⟨s.outWord j, s.draws, ?_, fun _ => rfl⟩
    rw [readOut_beyond hj, liveMask_beyond hj, BitVec.and_zero]
    rfl
  have hlive := Nat.lt_of_not_le hj
  cases hb : (s.busy || !s.outValid) with
  | true => exact ⟨_, _, readOut_unspecified hlive hb, nofun⟩
  | false => exact ⟨_, _, readOut_valid hlive hb, fun _ => rfl⟩

theorem readResult_returns (s : State) (v : Word) : ∃ w d, s.readResult v = { s with rdata := some w, draws := d } := by
  unfold State.readResult
  split
  · exact ⟨_, _, rfl⟩
  · exact ⟨_, _, rfl⟩

theorem readCsr_returns (s : State) (r : Csr) : ∃ w d, s.readCsr r = { s with rdata := some w, draws := d } := by
  cases r with
  | res0 | res1 | res2 | outLen => exact readResult_returns s _
  | cmd | status | arg | arg2 | cfgMmax | cfgNmax => exact ⟨_, _, rfl⟩

/-- Every read returns a word, and changes nothing else but the count of draws (20_memory.md R82). -/
theorem busRead_returns (s : State) (a : Offset) : ∃ w d, s.busRead a = { s with rdata := some w, draws := d } := by
  unfold State.busRead
  cases target a with
  | csr r => exact readCsr_returns s r
  | inWord j =>
    obtain ⟨v, d, h, _⟩ := readIn_masked s j
    exact ⟨_, d, h⟩
  | outWord j =>
    obtain ⟨v, d, h, _⟩ := readOut_masked s j
    exact ⟨_, d, h⟩
  | reserved => exact ⟨0, s.draws, rfl⟩

/-! What a write to each kind of offset does -/

theorem hostPart_writeCsr {s : State} {r : Csr} {v : Word} (h : WriteNext s (csrOffset r) v) :
    s.hostPart = .next ({ s with host := s.host.tail, rdata := none }.writeCsr v r) := by
  rw [hostPart_write (aligned_csrOffset r) h, State.busWrite, target_csrOffset]

/-- A write the block accepts only while idle, met by BUSY = 1: it sets OVR and does nothing else (20_memory.md R80). -/
theorem hostPart_dropped {s t : State} (hb : s.busy = true)
    (h : s.hostPart = .next ({ s with host := s.host.tail, rdata := none }.writeIfIdle t)) :
    s.hostPart = .next { s with ovr := true, rdata := none, host := s.host.tail } := h.trans (congrArg _ (if_pos hb))

theorem hostPart_writeIn {s : State} {a : Offset} {j : Nat} {v : Word} (hj : j < bufferWords s.cfg)
    (ha : a.toNat = inBase + 4 * j) (h : WriteNext s a v) :
    s.hostPart = .next ({ s with host := s.host.tail, rdata := none }.writeIfIdle
      ({ s with host := s.host.tail, rdata := none }.storeIn j v)) := by
  rw [hostPart_write (aligned_inWord ha) h, State.busWrite, target_inWord (lt_of_lt_of_le hj (bufferWords_le _)) ha]
  exact congrArg _ (if_neg (Nat.not_le.2 hj))

theorem hostPart_writeIn_idle {s : State} {a : Offset} {j : Nat} {v : Word} (hidle : s.busy = false)
    (hj : j < bufferWords s.cfg) (ha : a.toNat = inBase + 4 * j) (h : WriteNext s a v) :
    s.hostPart = .next { s.storeIn j v with rdata := none, host := s.host.tail } :=
  (hostPart_writeIn hj ha h).trans (congrArg _ (if_neg (Bool.eq_false_iff.1 hidle)))

/-- An IN word at W or above ignores a write, whatever BUSY is (20_memory.md R76, R80). -/
theorem hostPart_writeIn_beyond {s : State} {a : Offset} {j : Nat} {v : Word} (hj : j < 16384) (hd : bufferWords s.cfg ≤ j)
    (ha : a.toNat = inBase + 4 * j) (h : WriteNext s a v) :
    s.hostPart = .next { s with rdata := none, host := s.host.tail } := by
  rw [hostPart_write (aligned_inWord ha) h, State.busWrite, target_inWord hj ha]
  exact congrArg _ (if_pos hd)

theorem hostPart_writeOut {s : State} {a : Offset} {j : Nat} {v : Word} (hj : j < 16384) (ha : a.toNat = outBase + 4 * j)
    (h : WriteNext s a v) : s.hostPart = .next { s with rdata := none, host := s.host.tail } := by
  rw [hostPart_write (aligned_outWord ha) h, State.busWrite, target_outWord hj ha]

theorem hostPart_writeReserved {s : State} {a : Offset} {v : Word} (ha : aligned a = true)
    (hr : 0x28 ≤ a.toNat ∧ a.toNat < inBase ∨ 0x30000 ≤ a.toNat) (h : WriteNext s a v) :
    s.hostPart = .next { s with rdata := none, host := s.host.tail } := by
  rw [hostPart_write ha h, State.busWrite, target_reserved hr]

theorem storeIn_inBit_same (s : State) (j : Nat) (v : Word) {b : Nat} (hb : b < 32) :
    (s.storeIn j v).inBit (32 * j + b) = (decide (32 * j + b < nMax s.cfg) && v.getLsbD b) := by
  rw [inBit_word _ _ hb, storeIn_inWord_same, Option.getD_some, getLsbD_and_liveMask _ _ _ hb]

theorem storeIn_readByte_outside (s : State) (j : Nat) (v : Word) {x : Nat}
    (h : x < inBase + 4 * j ∨ inBase + 4 * j + 4 ≤ x) : (s.storeIn j v).mem.readByte x = s.mem.readByte x := by
  rw [storeIn_mem, readByte_writeWord, if_neg (by omega)]

/-! Which accesses are refused -/

/-- The bus refuses both strobes at once, and a misaligned access of one strobe (20_memory.md R70, R74). -/
theorem access_refused_iff (s : State) (p : PortIn) (r : Refusal) : s.access p = .refused r ↔
    (p.we = true ∧ p.re = true ∧ r = .bothStrobes) ∨ (p.we ≠ p.re ∧ aligned p.addr = false ∧ r = .misaligned) := by
  unfold State.access
  cases p.we with
  | true =>
    cases p.re with
    | true => simp [@eq_comm _ r]
    | false => cases aligned p.addr <;> simp [@eq_comm _ r]
  | false =>
    cases p.re with
    | true => cases aligned p.addr <;> simp [@eq_comm _ r]
    | false => simp

theorem hostPart_refused_iff (s : State) (r : Refusal) : s.hostPart = .refused r ↔
    ∃ p rest, s.host = .drive p :: rest ∧ ({ s with host := rest } : State).access p = .refused r := by
  unfold State.hostPart
  rcases s.host with _ | ⟨p | _, rest⟩
  · simp
  · simp
  · simp

/-- The block's part of a cycle never refuses. -/
theorem blockPart_not_refused (s : State) (k : Option Nat) (r : Refusal) : s.blockPart k ≠ .refused r := by
  rcases k with _ | _ | k
  · exact nofun
  · rw [State.blockPart]
    rcases completionStep_cases s with h | ⟨c, h⟩ <;> rw [h] <;> exact nofun
  · exact nofun

/-- A cycle without reset is the host's part, then the block's. -/
theorem step_of_hostPart_next {s u : State} (hr : ¬ ResetNext s) (h : s.hostPart = .next u) :
    step s = u.blockPart s.inflight := by
  rw [step, clockCycle, resetDriven_eq_none hr, h]

/-- A step is refused exactly where the host's part of it is, rst being 0. -/
theorem step_refused_iff (s : State) (r : Refusal) : step s = .refused r ↔ ¬ ResetNext s ∧ s.hostPart = .refused r := by
  unfold step clockCycle
  cases hd : resetDriven s.host with
  | some x =>
    have hreset : ResetNext s := ⟨x.1, x.2, resetNext_of_resetDriven hd⟩
    simp [hreset]
  | none =>
    have hreset := not_resetNext_of_resetDriven hd
    cases hp : s.hostPart with
    | next u => simp [blockPart_not_refused]
    | fault f => simp
    | refused q => simp [hreset]

/-! The statements of 20_memory.md -/

/-- Settles O18: the refusals are the bus's, and a cycle with rst 1 makes no access. -/
theorem refusesExactlyUndefinedAccesses : Obligations.RefusesExactlyUndefinedAccesses := by
  intro s r
  rw [step_refused_iff, hostPart_refused_iff]
  constructor
  · rintro ⟨hr, p, rest, hh, hp⟩
    have hrst : p.rst = false := Bool.eq_false_iff.2 fun hc => hr ⟨p, rest, hh, hc⟩
    refine ⟨p, rest, hh, hrst, ?_⟩
    simpa [aligned] using (access_refused_iff _ p r).1 hp
  · rintro ⟨p, rest, hh, hrst, hp⟩
    refine ⟨?_, p, rest, hh, (access_refused_iff _ p r).2 (by simpa [aligned] using hp)⟩
    rintro ⟨q, rest', hh', hq⟩
    cases hh.symm.trans hh'
    exact absurd (hrst.symm.trans hq) Bool.false_ne_true

/-- Settles O10: a register by its value, an IN word through the mask, and a result register or OUT word by a draw. -/
theorem readsWhileBusy : Obligations.ReadsWhileBusy := by
  intro s a hb hr
  refine ⟨fun v hmem => ?_, fun j v hj ha hv => ?_, fun j hj hlt ha => ?_, ?_⟩
  · obtain ⟨r, rfl, hv⟩ : ∃ r, a = csrOffset r ∧ s.readCsr r = s.giveRead v := by
      simp only [List.mem_cons, List.not_mem_nil, or_false, Prod.mk.injEq] at hmem
      rcases hmem with ⟨rfl, rfl⟩ | ⟨rfl, rfl⟩ | ⟨rfl, rfl⟩ | ⟨rfl, rfl⟩ | ⟨rfl, rfl⟩ | ⟨rfl, rfl⟩
      exacts [⟨.cmd, rfl, rfl⟩, ⟨.status, rfl, rfl⟩, ⟨.arg, rfl, rfl⟩, ⟨.arg2, rfl, rfl⟩, ⟨.cfgMmax, rfl, rfl⟩,
        ⟨.cfgNmax, rfl, rfl⟩]
    rw [hostPart_readCsr hr, hv, State.giveRead]
  · refine ⟨v &&& liveMask s.cfg j, ?_, fun b => getLsbD_and_liveMask v s.cfg j⟩
    rw [hostPart_readIn (lt_of_lt_of_le hj (bufferWords_le _)) ha hr, readIn_written hj hv, State.giveRead]
  · rw [hostPart_readIn hlt ha hr, readIn_beyond hj, State.giveRead]
  · rintro (hmem | ⟨j, hj, ha⟩)
    · obtain ⟨r, rfl, v, hv⟩ : ∃ r, a = csrOffset r ∧ ∃ v, s.readCsr r = s.readResult v := by
        simp only [List.mem_cons, List.not_mem_nil, or_false] at hmem
        rcases hmem with rfl | rfl | rfl | rfl
        exacts [⟨.res0, rfl, _, rfl⟩, ⟨.res1, rfl, _, rfl⟩, ⟨.res2, rfl, _, rfl⟩, ⟨.outLen, rfl, _, rfl⟩]
      rw [hostPart_readCsr hr, hv, readResult_busy hb]
      exact ⟨_, rfl⟩
    · rw [hostPart_readOut (lt_of_lt_of_le hj (bufferWords_le _)) ha hr, readOut_unspecified hj (by rw [hb, Bool.true_or])]
      exact ⟨_, rfl⟩

/-- Settles O12: a write stores where the word is live, and a read goes through the mask. -/
theorem inWindow : Obligations.InWindow := by
  refine fun s a j hj ha => ⟨fun v hidle hw => ?_, fun hr => ?_⟩
  · by_cases hlive : j < bufferWords s.cfg
    · exact ⟨(s.storeIn j v).mem, hostPart_writeIn_idle hidle hlive ha hw, fun hd => absurd hlive (Nat.not_lt.2 hd),
        fun _ => ⟨congrArg Option.isSome (storeIn_inWord_same s j v), fun b hb => storeIn_inBit_same s j v hb⟩,
        fun x hx => storeIn_readByte_outside s j v hx⟩
    · exact ⟨s.mem, hostPart_writeIn_beyond hj (Nat.not_lt.1 hlive) ha hw, fun _ => rfl, fun hc => absurd hc hlive, fun _ _ => rfl⟩
  · obtain ⟨v, d, hread, hword⟩ := readIn_masked s j
    refine ⟨v &&& liveMask s.cfg j, d, by rw [hostPart_readIn hj ha hr, hread], fun b hb hdead => ?_, fun hw b hb hl => ?_⟩
    · rw [getLsbD_and_liveMask _ _ _ hb, decide_eq_false (Nat.not_lt.2 hdead), Bool.false_and]
    · rw [getLsbD_and_liveMask _ _ _ hb, decide_eq_true hl, Bool.true_and, inBit_word _ _ hb, hword hw, Option.getD_some]

/-- Settles O13: a read goes through the mask, and the window takes no write. -/
theorem outWindow : Obligations.OutWindow := by
  refine fun s a j hj ha => ⟨fun hr => ?_, fun v => hostPart_writeOut hj ha⟩
  obtain ⟨v, d, hread, hword⟩ := readOut_masked s j
  refine ⟨v &&& liveMask s.cfg j, d, by rw [hostPart_readOut hj ha hr, hread], fun b hb hdead => ?_, fun hi hv b hb hl => ?_⟩
  · rw [getLsbD_and_liveMask _ _ _ hb, decide_eq_false (Nat.not_lt.2 hdead), Bool.false_and]
  · rw [getLsbD_and_liveMask _ _ _ hb, decide_eq_true hl, Bool.true_and, outBit_word _ _ hb,
      hword (by rw [hi, hv, Bool.not_true, Bool.or_self])]

/-- Settles O14: the four guarded kinds of write are dropped; any other is to STATUS, or to what ignores it. -/
theorem writesWhileBusyDropped : Obligations.WritesWhileBusyDropped := by
  intro s a v hb hal hw
  refine ⟨?_, fun hn => ?_⟩
  · rintro (rfl | rfl | rfl | ⟨j, hj, ha⟩)
    · exact hostPart_dropped hb (hostPart_writeCsr (r := .cmd) hw)
    · exact hostPart_dropped hb (hostPart_writeCsr (r := .arg) hw)
    · exact hostPart_dropped hb (hostPart_writeCsr (r := .arg2) hw)
    · exact hostPart_dropped hb (hostPart_writeIn hj ha hw)
  · by_cases h4 : a = 0x00004
    · subst h4
      exact hostPart_writeStatus hw
    rw [if_neg h4, if_neg h4]
    push Not at hn
    obtain ⟨hcmd, harg, harg2, hin⟩ := hn
    rcases target_cases hal with ⟨_, ht⟩ | ⟨j, hj, ha, _⟩ | ⟨j, hj, ha, _⟩ | ⟨hres, _⟩
    · have ha := eq_csrOffset hal ht
      generalize csrAt _ = r at ha
      subst ha
      rw [hostPart_writeCsr hw]
      cases r with
      | cmd => exact absurd rfl hcmd
      | status => exact absurd rfl h4
      | arg => exact absurd rfl harg
      | arg2 => exact absurd rfl harg2
      | res0 | res1 | res2 | outLen | cfgMmax | cfgNmax => rfl
    · have hdead : bufferWords s.cfg ≤ j := Nat.le_of_not_lt fun hlt => hin j hlt ha
      exact hostPart_writeIn_beyond hj hdead ha hw
    · exact hostPart_writeOut hj ha hw
    · exact hostPart_writeReserved hal hres hw

/-- Settles O11: an offset in either range names nothing, whatever BUSY is. -/
theorem reservedOffsets : Obligations.ReservedOffsets := by
  refine fun s a hal hres => ⟨fun hr => ?_, fun v => hostPart_writeReserved hal hres⟩
  rw [hostPart_read hal hr, State.busRead, target_reserved hres, State.giveRead]

/-- Settles O17: whatever the offset names, the read returns a word. -/
theorem readsHaveNoSideEffect : Obligations.ReadsHaveNoSideEffect := by
  intro s a hal hr
  obtain ⟨w, d, h⟩ := busRead_returns s a
  exact ⟨w, d, by rw [hostPart_read hal hr, h]⟩

/-- Settles O19: the cycle by what was in flight before it; the host's part leaves the operands of a command in flight alone. -/
theorem cycleOrder : Obligations.CycleOrder := by
  intro s u hr hu
  have hstep := step_of_hostPart_next hr hu
  refine ⟨fun hf => ?_, fun k hf => ?_, fun hf => ?_⟩
  · rw [hstep, hf, State.blockPart]
  · rw [hstep, hf, State.blockPart]
  · have hheld := hostEffect_busy (hostPart_effect hr hu) (busy_eq_true.2 ⟨0, hf⟩)
    refine ⟨fun i hi => ?_, hheld⟩
    obtain ⟨_, hcmd, _⟩ := hheld
    rw [hstep, hf, State.blockPart]
    exact completionStep_of_command (hcmd ▸ hi)

end Sys2Proof.Machine
end

section
/-! PROOFS. The encoding of the commands (30_encoding.md): the decoder and the encoder are inverse to each other, and a host's
WAIT loop ends on the completion of the command in flight. -/

namespace Sys2Proof.Machine

/-! The opcode map and the CMD values (30_encoding.md R103) -/

theorem encode_toNat_bounds (i : Instr) : 1 ≤ (encode i).toNat ∧ (encode i).toNat ≤ 7 := by
  cases i with
  | layout => exact Laws.CommandWord.layout.2
  | pclass => exact Laws.CommandWord.pclass.2
  | dpos => exact Laws.CommandWord.dpos.2
  | encode => exact Laws.CommandWord.encode.2
  | syndrome => exact Laws.CommandWord.syndrome.2
  | correct => exact Laws.CommandWord.correct.2
  | decode => exact Laws.CommandWord.decode.2

/-- The opcode map takes exactly the CMD value of a command to it. -/
theorem opcodeMap_eq_some_iff {n : Nat} {i : Instr} : opcodeMap n = some i ↔ n = (encode i).toNat := by
  constructor
  · intro h
    unfold opcodeMap at h
    split at h <;> cases h <;> rfl
  · rintro rfl
    cases i <;> rfl

/-- The CMD values of the commands are all of 1 to 7. -/
theorem exists_eq_encode_toNat_iff (n : Nat) : (∃ i, n = (encode i).toNat) ↔ 1 ≤ n ∧ n ≤ 7 := by
  constructor
  · rintro ⟨i, rfl⟩
    exact encode_toNat_bounds i
  · rintro ⟨h1, h7⟩
    interval_cases n
    exacts [⟨.layout, rfl⟩, ⟨.pclass, rfl⟩, ⟨.dpos, rfl⟩, ⟨.encode, rfl⟩, ⟨.syndrome, rfl⟩, ⟨.correct, rfl⟩,
      ⟨.decode, rfl⟩]

/-! The decoder by the fields of the word (30_encoding.md R100, R104-R106) -/

/-- A word decodes to a command when RSVD is 0 and the opcode map gives that command to OP. -/
theorem decodeCmd_eq_command_iff_fields {w : Word} {i : Instr} :
    decodeCmd w = .command i ↔ rsvdField w = 0 ∧ opcodeMap (opField w) = some i := by
  unfold decodeCmd
  by_cases hr : rsvdField w = 0
  · cases opcodeMap (opField w) <;> simp [hr]
  · simp [hr]

theorem decodeCmd_eq_command_iff (w : Word) (i : Instr) : decodeCmd w = .command i ↔ w = encode i := by
  have hi := encode_toNat_bounds i
  rw [decodeCmd_eq_command_iff_fields, opcodeMap_eq_some_iff, ← BitVec.toNat_inj, rsvdField, opField]
  omega

/-- Settles O2: the decoder by its fields, and the CMD values by their bounds. -/
theorem decodeIsInverseOfEncode : Obligations.DecodeIsInverseOfEncode := by
  refine ⟨decodeCmd_eq_command_iff, fun w hw => ?_, fun w => ?_⟩
  · cases hd : decodeCmd w with
    | command i => exact absurd ((decodeCmd_eq_command_iff w i).1 hd) (hw i)
    | illegal why => exact ⟨why, rfl⟩
  · simp only [decodeCmd_eq_command_iff, ← BitVec.toNat_inj, exists_eq_encode_toNat_iff]

/-! A cycle that polls STATUS (30_encoding.md R111) -/

theorem busRead_status (s : State) : s.busRead (csrOffset .status) = s.giveRead s.status := by
  simp only [State.busRead, target_csrOffset, State.readCsr]

/-- A cycle with a poll at the head of the queue: STATUS is read, and the poll stays there while BUSY = 1. -/
theorem step_of_poll {s : State} {rest : List HostStep} (h : s.host = .poll :: rest) :
    step s = { s with rdata := some s.status, host := if s.busy then s.host else rest }.blockPart s.inflight := by
  have hr : ¬ ResetNext s := not_resetNext_of_resetDriven (by rw [h, resetDriven])
  refine step_of_hostPart_next hr ?_
  rw [State.hostPart, h]
  simp only [State.pollStatus, busRead_status, State.giveRead, h]

theorem step_of_poll_busy {s : State} {rest : List HostStep} {k : Nat} (h : s.host = .poll :: rest)
    (hf : s.inflight = some k) : step s = { s with rdata := some s.status }.blockPart (some k) := by
  rw [step_of_poll h, if_pos (busy_eq_true.2 ⟨k, hf⟩), hf]

theorem step_of_poll_idle {s : State} {rest : List HostStep} (h : s.host = .poll :: rest) (hf : s.inflight = none) :
    step s = .next { s with rdata := some s.status, host := rest } := by
  rw [step_of_poll h, if_neg (Bool.eq_false_iff.1 (busy_eq_false.2 hf)), hf, State.blockPart]

/-! The completion a poll waits for -/

theorem completionStep_next {s u : State} (h : s.completionStep = .next u) : ∃ c, u = s.complete c := by
  rcases completionStep_cases s with hf | ⟨c, hc⟩
  · rw [hf] at h
    cases h
  · rw [hc] at h
    cases h
    exact ⟨c, rfl⟩

/-- The completion step does not look at the cycles left or at the read port, and leaves the read port alone. -/
theorem completionStep_of_inflight_rdata {s u : State} (h : s.completionStep = .next u) (f : Option Nat) (r : Option Word) :
    { s with inflight := f, rdata := r }.completionStep = .next { u with rdata := r } := by
  have hs : SameOperands s { s with inflight := f, rdata := r } := ⟨rfl, rfl, rfl, fun _ _ => rfl⟩
  rcases completionStep_congr (by rfl) hs with ⟨hf, _⟩ | ⟨c, hc, hc'⟩
  · rw [hf] at h
    cases h
  · rw [hc] at h
    cases h
    exact hc'

/-- The poll of the cycle after a completion reads the STATUS it left, and is the last. -/
theorem step_of_poll_completed {s u : State} {rest : List HostStep} (h : s.host = .poll :: rest)
    (hu : s.completionStep = .next u) (r : Option Word) :
    step { u with rdata := r } = .next { u with rdata := some u.status, host := rest } := by
  obtain ⟨c, rfl⟩ := completionStep_next hu
  exact step_of_poll_idle h rfl

/-- A poll with k cycles left to wait: k of waiting, the completion, and one in which the poll reads the STATUS it left. -/
theorem cycles_of_poll {k : Nat} {s u : State} {rest : List HostStep} (hf : s.inflight = some k)
    (h : s.host = .poll :: rest) (hu : s.completionStep = .next u) :
    cycles (k + 2) s = .next { u with rdata := some u.status, host := rest } := by
  induction k generalizing s u with
  | zero =>
    have hstep : step s = .next { u with rdata := some s.status } :=
      (step_of_poll_busy h hf).trans (completionStep_of_inflight_rdata hu s.inflight (some s.status))
    rw [cycles_succ, hstep]
    exact (cycles_one _).trans (step_of_poll_completed h hu _)
  | succ k ih =>
    have hstep : step s = .next { s with inflight := some k, rdata := some s.status } := step_of_poll_busy h hf
    rw [cycles_succ, hstep]
    exact ih (u := { u with rdata := some s.status }) rfl h (completionStep_of_inflight_rdata hu _ _)

/-- Settles O23: the last poll reads the STATUS the completion left, which shows BUSY = 0, DONE = 1 and its code. -/
theorem waitLoopEnds : Obligations.WaitLoopEnds := by
  intro k s u rest hf h hu
  refine ⟨_, u.status, cycles_of_poll hf h hu, rfl, rfl, ?_, ?_, status_result u⟩
  all_goals
    obtain ⟨c, rfl⟩ := completionStep_next hu
    rw [status_getLsbD]
    rfl

end Sys2Proof.Machine
end

section
/-! PROOFS. The parity layout (40_layout.md): how many powers of two stand in 1..h, so which positions hold data and which
lengths are codeword lengths, and the three commands that report it. -/

namespace Sys2Proof.Machine

/-! Parity and data positions, counted (40_layout.md R133, R135) -/

theorem lt_parityCount_iff {i h : Nat} : i < parityCount h ↔ 2 ^ i ≤ h := by
  rw [parityCount]
  split
  · subst_vars
    simp
  · rename_i h0
    rw [Nat.lt_succ_iff, Nat.le_log2 h0]

theorem ne_two_pow {p : Nat} (hp : isPow2 p = false) (i : Nat) : p ≠ 2 ^ i := fun h =>
  Bool.eq_false_iff.1 hp ((isPow2_iff p).2 ⟨i, h⟩)

/-- The parity count goes up by one at a power of two. -/
theorem parityCount_succ (p : Nat) : parityCount (p + 1) = parityCount p + (isPow2 (p + 1)).toNat := by
  refine eq_of_forall_lt_iff fun j => ?_
  cases hp : isPow2 (p + 1) with
  | true =>
    obtain ⟨i, hi⟩ := (isPow2_iff _).1 hp
    have hcount : parityCount p = i := eq_of_forall_lt_iff fun k => by
      rw [lt_parityCount_iff, ← Nat.lt_succ_iff, Nat.succ_eq_add_one, hi, Nat.pow_lt_pow_iff_right (by decide)]
    rw [lt_parityCount_iff, hcount, hi, Nat.pow_le_pow_iff_right (by decide), Bool.toNat_true, Nat.lt_succ_iff]
  | false =>
    have hne := ne_two_pow hp j
    simp only [Bool.toNat_false, Nat.add_zero, lt_parityCount_iff]
    omega

/-- The number of data positions goes up by one elsewhere. -/
theorem dataPositions_succ (p : Nat) : dataPositions (p + 1) = dataPositions p + (!isPow2 (p + 1)).toNat := by
  rw [dataPositions, positions, List.range'_1_concat, List.filter_append, List.length_append, Nat.add_comm 1 p]
  cases hp : isPow2 (p + 1) <;> simp [dataPositions, positions, hp]

/-- Every position is a parity or a data position. -/
theorem dataPositions_add_parityCount (p : Nat) : dataPositions p + parityCount p = p := by
  induction p with
  | zero => rfl
  | succ p ih =>
    rw [dataPositions_succ, parityCount_succ]
    cases isPow2 (p + 1) <;> simp <;> omega

/-- The Hamming portion of the layout of m holds m data positions. -/
theorem dataPositions_hamming (m : Nat) : dataPositions (m + rcount m) = m := by
  have := dataPositions_add_parityCount (m + rcount m)
  rw [parityCount_hamming] at this
  omega

theorem two_pow_le_hamming_iff {i m : Nat} : 2 ^ i ≤ m + rcount m ↔ i < rcount m := by
  rw [← lt_parityCount_iff, parityCount_hamming]

/-- Settles O25: the powers of two up to h are as many as the layout's r, and the other positions are counted by the rest. -/
theorem parityPositionsOfLayout : Obligations.ParityPositionsOfLayout := by
  refine fun m => ⟨fun i hi => ⟨Nat.one_le_two_pow, two_pow_le_hamming_iff.2 hi⟩, fun p _ hp => ?_,
    dataPositions_hamming m⟩
  rw [isPow2_iff]
  constructor
  · rintro ⟨i, rfl⟩
    exact ⟨i, two_pow_le_hamming_iff.1 hp, rfl⟩
  · rintro ⟨i, _, rfl⟩
    exact ⟨i, rfl⟩

/-! The lengths of Hamming portions (40_layout.md R134) -/

/-- A Hamming portion never ends at a parity position, since the check of that position would already be enough. -/
theorem isPow2_hamming (m : Nat) : isPow2 (m + rcount m) = false := by
  rw [← Bool.not_eq_true, isPow2_iff]
  rintro ⟨i, hi⟩
  have hlt : i < rcount m := two_pow_le_hamming_iff.1 hi.ge
  have := (rcount_spec m).2 i hlt
  omega

/-- A position that is no power of two ends the Hamming portion of the layout of its data positions. -/
theorem rcount_dataPositions {p : Nat} (hp : isPow2 p = false) : rcount (dataPositions p) = parityCount p := by
  have hsum := dataPositions_add_parityCount p
  refine rcount_eq (by rw [hsum]; exact lt_two_pow_parityCount p) fun r hr => ?_
  have hlast : 2 ^ (parityCount p - 1) ≤ p := lt_parityCount_iff.1 (by omega)
  have hne := ne_two_pow hp (parityCount p - 1)
  have hgrow : parityCount p - 1 - r + 2 ^ r ≤ 2 ^ (parityCount p - 1 - r + r) :=
    (pow_right_strictMono₀ one_lt_two).add_le_nat _ _
  rw [Nat.sub_add_cancel (by omega)] at hgrow
  omega

theorem hamming_dataPositions {p : Nat} (hp : isPow2 p = false) : dataPositions p + rcount (dataPositions p) = p := by
  rw [rcount_dataPositions hp, dataPositions_add_parityCount]

theorem wellFormedLength_iff (n : Nat) : wellFormedLength n = true ↔ ∃ m, n = m + rcount m + 1 := by
  constructor
  · intro h
    simp only [wellFormedLength, Bool.and_eq_true, decide_eq_true_eq, Bool.not_eq_true'] at h
    obtain ⟨hn, hp⟩ := h
    exact ⟨dataPositions (n - 1), by rw [hamming_dataPositions hp]; omega⟩
  · rintro ⟨m, rfl⟩
    simp [wellFormedLength, isPow2_hamming]

theorem hamming_injective {m m' : Nat} (h : m + rcount m = m' + rcount m') : m = m' := by
  rw [← dataPositions_hamming m, h, dataPositions_hamming]

theorem layoutOf_hamming (m : Nat) : layoutOf (m + rcount m + 1) = layout m := by
  simp [layoutOf, layout, parityCount_hamming]

/-- Settles O26: a length determines its layout, since m is the number of data positions of its Hamming portion. -/
theorem wellFormedLengths : Obligations.WellFormedLengths :=
  ⟨wellFormedLength_iff, fun _ => wellFormedLength_eq_false, fun _ _ h => hamming_injective (Nat.succ.inj h), layoutOf_hamming⟩

/-! Rank and position (40_layout.md R136, R137) -/

theorem rank_eq_dataPositions (p : Nat) : rank p = dataPositions p := by
  have hrank : rank p = p - parityCount p := by
    unfold rank parityCount
    split
    · subst_vars
      rfl
    · rfl
  have := dataPositions_add_parityCount p
  omega

theorem dpos_rank {p : Nat} (hp : isPow2 p = false) : dpos (rank p) = p := by
  rw [rank_eq_dataPositions, dpos, hamming_dataPositions hp]

theorem isPow2_dpos (k : Nat) : isPow2 (dpos k) = false := isPow2_hamming k

theorem dataPositions_dpos (k : Nat) : dataPositions (dpos k) = k := dataPositions_hamming k

/-- Settles O27: rank is the count of data positions, which the layout of a data position undoes. -/
theorem rankAndPositionInverse : Obligations.RankAndPositionInverse :=
  ⟨fun p _ hp => ⟨rfl, rank_eq_dataPositions p, dpos_rank hp⟩,
    fun k _ => ⟨rfl, isPow2_dpos k, (rank_eq_dataPositions _).trans (dataPositions_dpos k)⟩⟩

/-! The commands (40_layout.md R140-R142) -/

/-- A success that reports two words and no output. -/
theorem completed_words (s : State) {x y : Nat} (hx : x < 2 ^ 32) (hy : y < 2 ^ 32) :
    Completed s (s.complete { result := .ok, res0 := x, res1 := y }) .ok x y 0 [] :=
  completed_complete s { result := .ok, res0 := x, res1 := y } hx hy (Nat.two_pow_pos 32) (Nat.two_pow_pos 32)

theorem completed_layoutReport (s : State) {m : Nat} (hm : m ≤ dataMax s.cfg) :
    Completed s (s.complete (layoutReport (layout m) [])) .ok (rcount m) (m + rcount m + 1) (m + rcount m) [] := by
  have hn : m + rcount m + 1 < 2 ^ 32 := Nat.lt_of_le_of_lt (layout_n_le hm) (nMax_lt s.cfg)
  have hh : m + rcount m < 2 ^ 32 := Nat.lt_of_succ_lt hn
  have hr : rcount m < 2 ^ 32 := Nat.lt_of_le_of_lt (Nat.le_add_left _ _) hh
  exact completed_complete s (layoutReport (layout m) []) hr hn hh (Nat.two_pow_pos 32)

/-- Settles O28: the reported r is rcount(m), which is the smallest that passes, and the layout's numbers fit their registers. -/
theorem layoutCommand : Obligations.LayoutCommand := by
  refine fun s => ⟨fun hm => ?_, fun hr => ⟨_, exec_layout_range hr, completed_raise s .range⟩⟩
  obtain ⟨hpass, hleast⟩ := rcount_spec s.arg.toNat
  exact ⟨_, _, exec_layout_ok hm, hpass, hleast, completed_layoutReport s hm⟩

theorem classReport_zero : classReport 0 = { result := .ok, res0 := 2 } := rfl

theorem classReport_two_pow (i : Nat) : classReport (2 ^ i) = { result := .ok, res0 := 1, res1 := i } := by
  rw [classReport, if_neg (Nat.two_pow_pos i).ne', if_pos (isPow2_two_pow i), Nat.log2_two_pow]

theorem classReport_data {p : Nat} (h0 : p ≠ 0) (hp : ∀ i, p ≠ 2 ^ i) :
    classReport p = { result := .ok, res0 := 0, res1 := rank p } := by
  rw [classReport, if_neg h0, if_neg fun h => ((isPow2_iff p).1 h).elim hp]

/-- Settles O29: the class of each kind of index; a check index and a rank are no larger than ARG. -/
theorem pclassCommand : Obligations.PclassCommand := by
  refine fun s => ⟨fun hp => ⟨_, exec_pclass_ok hp, fun h0 => ?_, fun i hi => ?_, fun h0 hdata => ?_⟩,
    fun hr => ⟨_, exec_pclass_range hr, completed_raise s .range⟩⟩
  · rw [h0, classReport_zero]
    exact completed_words s (by decide) (by decide)
  · have hlt : i < 2 ^ 32 := Nat.lt_two_pow_self.trans (hi ▸ s.arg.isLt)
    rw [hi, classReport_two_pow]
    exact completed_words s (by decide) hlt
  · have hlt : rank s.arg.toNat < 2 ^ 32 := Nat.lt_of_le_of_lt (Nat.sub_le _ _) s.arg.isLt
    rw [classReport_data h0 hdata]
    exact completed_words s (by decide) hlt

/-- Settles O30: the position of rank k is a data position with k data positions up to it, and lies in the largest codeword. -/
theorem dposCommand : Obligations.DposCommand := by
  refine fun s => ⟨fun h0 hk => ⟨_, exec_dpos_ok h0 hk, ?_, fun i hi => ?_, dataPositions_dpos _⟩,
    fun hr => ⟨_, exec_dpos_range hr, completed_raise s .range⟩⟩
  · have hlt : dpos s.arg.toNat < 2 ^ 32 := Nat.lt_of_succ_lt (Nat.lt_of_le_of_lt (layout_n_le hk) (nMax_lt s.cfg))
    exact completed_words s hlt (Nat.two_pow_pos 32)
  · exact ne_two_pow (isPow2_dpos _) i hi

end Sys2Proof.Machine
end

section
/-! PROOFS. The encoder (41_encode.md): every check of an encoded codeword passes and the data stand at their positions; a
flip XORs its position into the syndrome, so codewords of one length differ in 4 or more bits; and the command ENCODE. -/

namespace Sys2Proof.Machine

/-! The codeword (41_encode.md R160, R162) -/

/-- A selected index taken out of a fold. -/
theorem xorWhere_erase {sel : Nat → Bool} {p : Nat} (hp : sel p = true) (c : List Bool) :
    xorWhere sel c = (xorWhere (fun j => j ≠ p && sel j) c ^^ bitAt c p) := by
  rw [← xorWhere_eq p c, ← xorWhere_or c fun j => by by_cases h : j = p <;> simp [h]]
  congr 1
  funext j
  by_cases h : j = p
  · simp [h, hp]
  · simp [h]

/-- Replacing a selected bit by the fold of the others makes the fold 0. -/
theorem xorWhere_set_rest {sel : Nat → Bool} {c : List Bool} {p : Nat} (hp : sel p = true) (h : p < c.length) :
    xorWhere sel (c.set p (xorWhere (fun j => j ≠ p && sel j) c)) = false := by
  rw [xorWhere_set sel _ h, xorWhere_erase hp c, hp, Bool.true_and, Bool.xor_comm (bitAt c p), Bool.xor_self]

theorem chk_setParity_same {c : List Bool} {i : Nat} (h : 2 ^ i < c.length) : chk i (setParity c i) = false :=
  xorWhere_set_rest (by simp [covers_two_pow]) h

/-- A parity position is in no check but its own, so its step leaves the other checks alone. -/
theorem chk_setParity_ne {c : List Bool} {i j : Nat} (hne : j ≠ i) (h : 2 ^ j < c.length) :
    chk i (setParity c j) = chk i c := by
  rw [chk, setParity, xorWhere_set _ _ h, covers_two_pow, decide_eq_false hne, Bool.false_and, Bool.xor_false, chk]

/-- After the first k parity steps their k checks pass. -/
theorem chk_paritySteps (c : List Bool) (i : Nat) : ∀ k, (∀ j < k, 2 ^ j < c.length) → i < k →
    chk i ((List.range k).foldl setParity c) = false
  | 0, _, hi => absurd hi (Nat.not_lt_zero i)
  | k + 1, hc, hi => by
    have hk : 2 ^ k < ((List.range k).foldl setParity c).length := by simpa using hc k k.lt_succ_self
    rw [List.range_succ, List.foldl_append, List.foldl_cons, List.foldl_nil]
    rcases Nat.lt_succ_iff_lt_or_eq.1 hi with hlt | rfl
    · rw [chk_setParity_ne hlt.ne' hk]
      exact chk_paritySteps c i k (fun j hj => hc j (Nat.lt_succ_of_lt hj)) hlt
    · exact chk_setParity_same hk

theorem chk_enc {d : List Bool} {i : Nat} (hi : i < rcount d.length) : chk i (enc d) = false := by
  rw [enc_eq, chk_setGlobal i (by simp)]
  exact chk_paritySteps (placeData d) i _ (fun j hj => by simpa using two_pow_lt_length hj) hi

@[simp] theorem ovc_enc (d : List Bool) : ovc (enc d) = false := by
  have := xorWhere_set_rest (sel := fun _ => true) rfl (show 0 < (hammingPortion d).length by simp)
  simpa [ovc, enc_eq, setGlobal] using this

@[simp] theorem synd_enc (d : List Bool) : synd (enc d) = 0 := by
  refine Nat.eq_of_testBit_eq fun j => ?_
  rw [synd_testBit, enc_length, layoutOf_hamming, Nat.zero_testBit]
  by_cases hj : j < rcount d.length
  · rw [chk_enc hj, Bool.and_false]
  · rw [decide_eq_false (show ¬ j < (layout d.length).r from hj), Bool.false_and]

theorem rank_dpos (k : Nat) : rank (dpos k) = k := (rank_eq_dataPositions _).trans (dataPositions_dpos k)

theorem bitAt_enc_dpos (d : List Bool) {k : Nat} (h1 : 1 ≤ k) (hk : k ≤ d.length) :
    bitAt (enc d) (dpos k) = bitAt d (k - 1) := by
  have hlt : dpos k < d.length + rcount d.length + 1 := by
    have := rcount_mono hk
    rw [dpos]
    omega
  have h0 : dpos k ≠ 0 := by
    rw [dpos]
    omega
  rw [bitAt_enc_data d hlt h0 (isPow2_dpos k), rank_dpos]

/-- Index 0 is in no check, so a check is a fold over the positions from 1 up. -/
theorem chk_eq_positions (i : Nat) (c : List Bool) : chk i c = xorWhere (fun p => decide (1 ≤ p) && p.testBit i) c := by
  refine congrArg (xorWhere · c) (funext fun p => ?_)
  rcases p with _ | p
  · simp
  · simp [covers]

/-- Settles O32: each parity step makes its check pass and no later one undoes it; the global bit evens out the whole. -/
theorem codewordInvariants : Obligations.CodewordInvariants := fun d =>
  ⟨enc_length d, fun i hi => chk_eq_positions i (enc d) ▸ chk_enc hi, ovc_enc d, fun _ h1 hk => bitAt_enc_dpos d h1 hk⟩

/-! Flips, and the distance of codewords (42_syndrome.md R184; 41_encode.md R163) -/

/-- A flip XORs its index into the syndrome: the syndrome is wide enough for every index of the sequence. -/
theorem synd_flipBit {c : List Bool} {p : Nat} (h : p < c.length) : synd (flipBit c p) = synd c ^^^ p := by
  refine Nat.eq_of_testBit_eq fun j => ?_
  rw [Nat.testBit_xor, synd_testBit, synd_testBit, flipBit_length, chk_flipBit j h, covers]
  by_cases hj : j < (layoutOf c.length).r
  · simp [hj]
  · have hp : p < 2 ^ j := calc
      p ≤ c.length - 1 := Nat.le_sub_one_of_lt h
      _ < 2 ^ parityCount (c.length - 1) := lt_two_pow_parityCount _
      _ ≤ 2 ^ j := Nat.pow_le_pow_right (by decide) (Nat.le_of_not_lt hj)
    simp [hj, Nat.testBit_lt_two_pow hp]

theorem synd_foldl_flipBit : ∀ (e : List Nat) (c : List Bool), (∀ p ∈ e, p < c.length) →
    synd (e.foldl flipBit c) = e.foldl (· ^^^ ·) (synd c)
  | [], _, _ => rfl
  | p :: e, c, h => by
    obtain ⟨hp, he⟩ := List.forall_mem_cons.1 h
    rw [List.foldl_cons, List.foldl_cons, synd_foldl_flipBit e (flipBit c p) (by simpa using he), synd_flipBit hp]

theorem ovc_foldl_flipBit : ∀ (e : List Nat) (c : List Bool), (∀ p ∈ e, p < c.length) →
    ovc (e.foldl flipBit c) = (ovc c ^^ decide (e.length % 2 = 1))
  | [], c, _ => by simp
  | p :: e, c, h => by
    obtain ⟨hp, he⟩ := List.forall_mem_cons.1 h
    rw [List.foldl_cons, ovc_foldl_flipBit e (flipBit c p) (by simpa using he), ovc_flipBit hp, List.length_cons]
    rcases Nat.mod_two_eq_zero_or_one e.length with h2 | h2 <;> simp [Nat.add_mod, h2]

/-- The indices at which two sequences differ. -/
def differences (c c' : List Bool) : List Nat := (List.range c.length).filter (fun i => bitAt c i != bitAt c' i)

theorem mem_differences {c c' : List Bool} {i : Nat} :
    i ∈ differences c c' ↔ i < c.length ∧ bitAt c i ≠ bitAt c' i := by
  simp [differences]

theorem nodup_differences (c c' : List Bool) : (differences c c').Nodup := List.nodup_range.filter _

theorem foldl_flipBit_differences {c c' : List Bool} (hl : c.length = c'.length) :
    (differences c c').foldl flipBit c = c' := by
  refine ext_bitAt (by simpa using hl) fun i hi => ?_
  have hi : i < c.length := by simpa using hi
  rw [bitAt_foldl_flipBit _ _ (nodup_differences c c') fun p hp => (mem_differences.1 hp).1]
  cases h : bitAt c i <;> cases h' : bitAt c' i <;> simp [mem_differences, hi, h, h']

theorem differences_ne_nil {c c' : List Bool} (hl : c.length = c'.length) (hne : c ≠ c') : differences c c' ≠ [] := by
  intro hnil
  have hflip := foldl_flipBit_differences hl
  rw [hnil] at hflip
  exact hne hflip

theorem enc_injective {d d' : List Bool} (hl : d.length = d'.length) (h : enc d = enc d') : d = d' := by
  refine ext_bitAt hl fun i hi => ?_
  have hd := bitAt_enc_dpos d (k := i + 1) (Nat.succ_pos i) hi
  have hd' := bitAt_enc_dpos d' (k := i + 1) (Nat.succ_pos i) (hl ▸ hi)
  rw [h] at hd
  exact hd.symm.trans hd'

/-- Distinct numbers, of even count and not none, that XOR to 0 are four or more: two that XOR to 0 are equal. -/
theorem four_le_length_of_xor_eq_zero {e : List Nat} (hne : e ≠ []) (hnodup : e.Nodup) (heven : ¬ e.length % 2 = 1)
    (hxor : e.foldl (· ^^^ ·) 0 = 0) : 4 ≤ e.length := by
  match e with
  | [] => exact absurd rfl hne
  | [_] => simp at heven
  | [p, q] =>
    have hpq : p = q := by simpa using hxor
    simp [hpq] at hnodup
  | [_, _, _] => simp at heven
  | _ :: _ :: _ :: _ :: e => exact Nat.le_add_left 4 e.length

/-- Settles O33: the flips that lead from one codeword to another leave syndrome and overall check 0, so they are even in number
and their positions XOR to 0. -/
theorem minimumDistanceFour : Obligations.MinimumDistanceFour := by
  intro d d' hl hd
  have hlen : (enc d).length = (enc d').length := by simp [hl]
  have hmem : ∀ p ∈ differences (enc d) (enc d'), p < (enc d).length := fun p hp => (mem_differences.1 hp).1
  have hsynd := synd_foldl_flipBit _ _ hmem
  have hovc := ovc_foldl_flipBit _ _ hmem
  rw [foldl_flipBit_differences hlen, synd_enc, synd_enc] at hsynd
  rw [foldl_flipBit_differences hlen, ovc_enc, ovc_enc, Bool.false_xor] at hovc
  exact four_le_length_of_xor_eq_zero (differences_ne_nil hlen fun h => hd (enc_injective hl h))
    (nodup_differences _ _) (of_decide_eq_false hovc.symm) hsynd.symm

/-! The command (41_encode.md R161) -/

theorem exec_encode_range {s : State} (h : dataMax s.cfg < s.arg.toNat) : exec .encode s = .next (s.raise .range) := by
  simp only [exec, execEncode, dataOperand_range h, State.finish]

theorem exec_encode_ok {s : State} (h : s.arg.toNat ≤ dataMax s.cfg) (hw : s.operandWritten s.arg.toNat = true) :
    exec .encode s = .next (s.complete (layoutReport (layout s.arg.toNat) (enc (s.inBits s.arg.toNat)))) := by
  simp only [exec, execEncode, dataOperand_ready h hw, State.finish, inBits_length, State.argNat]

theorem completed_encode (s : State) {d : List Bool} (hd : d.length ≤ dataMax s.cfg) :
    Completed s (s.complete (layoutReport (layout d.length) (enc d))) .ok (rcount d.length)
      (d.length + rcount d.length + 1) (d.length + rcount d.length) (enc d) := by
  have hn : d.length + rcount d.length + 1 < 2 ^ 32 := Nat.lt_of_le_of_lt (layout_n_le hd) (nMax_lt s.cfg)
  have hh : d.length + rcount d.length < 2 ^ 32 := Nat.lt_of_succ_lt hn
  have hr : rcount d.length < 2 ^ 32 := Nat.lt_of_le_of_lt (Nat.le_add_left _ _) hh
  exact completed_complete s (layoutReport (layout d.length) (enc d)) hr hn hh ((enc_length d).symm ▸ hn)

/-- Settles O31: by the answer of the operand check; the codeword of data that fit fits the buffer and its numbers the registers. -/
theorem encodeCommand : Obligations.EncodeCommand := by
  refine fun s => ⟨fun hm hw => ⟨_, _, exec_encode_ok hm hw, rfl, by simp, ?_⟩,
    fun hr => ⟨_, exec_encode_range hr, completed_raise s .range⟩,
    fun hm hw => exec_encode_eq_fault.2 (dataOperand_unwritten hm hw)⟩
  have := completed_encode s (d := s.inBits s.arg.toNat) (by simpa using hm)
  rwa [inBits_length] at this

end Sys2Proof.Machine
end

section
/-! PROOFS. The syndrome computer (42_syndrome.md): a sequence is what the flips of its ones make of the zero sequence, so its
syndrome is the XOR of their positions; what further flips do to it; how wide it is; and the command SYNDROME. -/

namespace Sys2Proof.Machine

/-! The syndrome as an XOR of positions (42_syndrome.md R181) -/

theorem xorFrom_replicate_false (sel : Nat → Bool) : ∀ n i, xorFrom sel i (List.replicate n false) = false
  | 0, _ => rfl
  | n + 1, i => by
    rw [List.replicate_succ, xorFrom, xorFrom_replicate_false sel n (i + 1), Bool.and_false, Bool.xor_false]

theorem synd_replicate_false (n : Nat) : synd (List.replicate n false) = 0 := by
  refine Nat.eq_of_testBit_eq fun j => ?_
  rw [synd_testBit, chk, xorWhere, xorFrom_replicate_false, Bool.and_false, Nat.zero_testBit]

/-- The indices at which a sequence differs from the zero sequence are those that hold 1. -/
theorem differences_replicate_false (c : List Bool) :
    differences (List.replicate c.length false) c = (List.range c.length).filter (bitAt c) := by
  rw [differences, List.length_replicate]
  refine List.filter_congr fun i hi => ?_
  simp [bitAt, List.mem_range.1 hi]

/-- The syndrome is the XOR of all the indices that hold 1: each of them is a flip of the zero sequence. -/
theorem synd_eq_xor_indices (c : List Bool) :
    synd c = ((List.range c.length).filter (bitAt c)).foldl (· ^^^ ·) 0 := by
  have hflip := foldl_flipBit_differences (c := List.replicate c.length false) (c' := c) List.length_replicate
  have hsynd := synd_foldl_flipBit _ _ fun p hp =>
    (mem_differences (c := List.replicate c.length false) (c' := c).1 hp).1
  rwa [hflip, synd_replicate_false, differences_replicate_false] at hsynd

/-- Index 0 adds nothing to the XOR, so the positions 1..h suffice. -/
theorem synd_eq_xor_positions (c : List Bool) :
    synd c = ((positions (c.length - 1)).filter (bitAt c)).foldl (· ^^^ ·) 0 := by
  rw [synd_eq_xor_indices]
  cases c with
  | nil => rfl
  | cons b c =>
    rw [List.length_cons, List.range_eq_range', List.range'_succ, List.filter_cons]
    cases b <;> rfl

/-- Settles O34: bit by bit by the checks, and as a whole by the flips that make c of the zero sequence. -/
theorem syndromeIsXorOfPositions : Obligations.SyndromeIsXorOfPositions :=
  fun c _ => ⟨fun i => by rw [synd_testBit, chk_eq_positions], synd_eq_xor_positions c⟩

/-! What flips do (42_syndrome.md R184) -/

theorem foldl_xor_eq (e : List Nat) (s : Nat) : e.foldl (· ^^^ ·) s = s ^^^ e.foldl (· ^^^ ·) 0 := by
  have hassoc := List.foldl_assoc (op := fun x y : Nat => x ^^^ y) (l := e) (a₁ := s) (a₂ := 0)
  rwa [Nat.xor_zero] at hassoc

/-- Settles O35: one flip after another; two flips of an encoded codeword make it p XOR q, which is 0 only for p = q. -/
theorem syndromeLinear : Obligations.SyndromeLinear := by
  refine ⟨fun c e _ _ he => ⟨?_, ovc_foldl_flipBit e c he⟩, fun d p hp => ⟨?_, ?_⟩,
    fun d p q hp hq hne => ⟨?_, Nat.xor_ne_zero_iff.2 hne, ?_⟩⟩
  · rw [synd_foldl_flipBit e c he, foldl_xor_eq]
  · rw [synd_flipBit hp, synd_enc, Nat.zero_xor]
  · rw [ovc_flipBit hp, ovc_enc, Bool.not_false]
  · rw [synd_flipBit (by rwa [flipBit_length]), synd_flipBit hp, synd_enc, Nat.zero_xor]
  · rw [ovc_flipBit (by rwa [flipBit_length]), ovc_flipBit hp, ovc_enc, Bool.not_false, Bool.not_true]

/-! The width of the syndrome (42_syndrome.md R185) -/

theorem parityCount_mono {h h' : Nat} (hle : h ≤ h') : parityCount h ≤ parityCount h' :=
  Nat.le_of_not_lt fun hlt => Nat.lt_irrefl _ (lt_parityCount_iff.2 ((lt_parityCount_iff.1 hlt).trans hle))

theorem layoutOf_r_le_rMax {cfg : Config} {n : Nat} (hn : n ≤ nMax cfg) : (layoutOf n).r ≤ rMax cfg := calc
  parityCount (n - 1) ≤ parityCount (hMax cfg) := parityCount_mono (Nat.sub_le_of_le_add hn)
  _ = rMax cfg := parityCount_hamming (dataMax cfg)

/-- The largest DATA_MAX passes the test of 40_layout.md R131 at 19. -/
theorem rMax_le (cfg : Config) : rMax cfg ≤ 19 := by
  have hm : dataMax cfg < 524269 := cfg.dataMax.isLt
  refine rcount_le ?_
  omega

theorem synd_lt (c : List Bool) : synd c < 2 ^ (layoutOf c.length).r := assembleSyndrome_lt c _

/-- Settles O36: the syndrome by its bits, r by the largest Hamming portion, and R_MAX by the largest DATA_MAX. -/
theorem syndromeBound : Obligations.SyndromeBound :=
  fun cfg c _ hn => ⟨synd_lt c, layoutOf_r_le_rMax hn, rMax_le cfg⟩

/-- The syndrome of a codeword the block accepts fits a register. -/
theorem synd_lt_word {cfg : Config} {c : List Bool} (hn : c.length ≤ nMax cfg) : synd c < 2 ^ 32 := by
  have hr : (layoutOf c.length).r ≤ 32 := (layoutOf_r_le_rMax hn).trans ((rMax_le cfg).trans (by decide))
  exact (synd_lt c).trans_le (Nat.pow_le_pow_right (by decide) hr)

/-! The command (42_syndrome.md R183) -/

/-- A codeword command whose operand check fails completes with the code of the check. -/
theorem exec_codeword_fails {i : Instr} {s : State} {code : Result} (h : takesCodeword i = true)
    (hx : s.codewordOperand = .fails code) : exec i s = .next (s.raise code) := by
  cases i with
  | layout | pclass | dpos | encode => cases h
  | syndrome => rw [exec, execSyndrome, hx, State.finish]
  | correct => rw [exec, execCorrect, hx, State.finish]
  | decode => rw [exec, execDecode, hx, State.finish]

theorem exec_syndrome_ok {s : State} (hn : s.arg.toNat ≤ nMax s.cfg) (hf : wellFormedLength s.arg.toNat = true)
    (hw : s.operandWritten s.arg.toNat = true) :
    exec .syndrome s = .next (s.complete (checkReport .ok (synd (s.inBits s.arg.toNat)) (ovc (s.inBits s.arg.toNat))
      s.arg.toNat [])) := by
  simp only [exec, execSyndrome, codewordOperand_ready hn hf hw, State.finish, inBits_length, State.argNat]

/-- The three words of a codeword command fit their registers when the syndrome, the codeword and the output do. -/
theorem completed_checkReport (s : State) (code : Result) {y n : Nat} (o : Bool) {out : List Bool} (hy : y < 2 ^ 32)
    (hn : n < 2 ^ 32) (hout : out.length < 2 ^ 32) :
    Completed s (s.complete (checkReport code y o n out)) code y o.toNat (layoutOf n).m out :=
  completed_complete s (checkReport code y o n out) hy (o.toNat_lt.trans (by decide))
    (Nat.lt_of_le_of_lt (layoutOf_m_le n) hn) hout

/-- Settles O37: by the answer of the operand check; the syndrome of a codeword that fits the buffer fits RES0. -/
theorem syndromeCommand : Obligations.SyndromeCommand := by
  refine fun s => ⟨fun hn hf hw => ⟨_, exec_syndrome_ok hn hf hw, ?_⟩,
    fun hr => ⟨_, exec_codeword_fails rfl (codewordOperand_range hr), completed_raise s .range⟩,
    fun hn hf => ⟨_, exec_codeword_fails rfl (codewordOperand_malformed hn hf), completed_raise s .malformed⟩,
    fun hn hf hw => (exec_codeword_eq_fault rfl).2 (codewordOperand_unwritten hn hf hw)⟩
  have hy : synd (s.inBits s.arg.toNat) < 2 ^ 32 := synd_lt_word (cfg := s.cfg) (by rwa [inBits_length])
  exact completed_checkReport s .ok _ hy s.arg.isLt (Nat.two_pow_pos 32)

end Sys2Proof.Machine
end

section
/-! PROOFS. The corrector (43_correct.md): the rows of the decision table, what a correction completes with in each of them, the
command CORRECT, and the diagnosis of an encoded codeword with any number of flips. -/

namespace Sys2Proof.Machine

/-! The decision table, row by row (43_correct.md R200) -/

theorem classify_zero_even {s : Nat} (h : Nat) (hs : s = 0) : classify s false h = .noErr := if_pos hs

theorem classify_zero_odd {s : Nat} (h : Nat) (hs : s = 0) : classify s true h = .globalErr := if_pos hs

theorem classify_even {s : Nat} (h : Nat) (hs : s ≠ 0) : classify s false h = .uncorr := if_neg hs

theorem classify_odd_within {s h : Nat} (hs : s ≠ 0) (hle : s ≤ h) : classify s true h = .single s :=
  (if_neg hs).trans (if_pos hle)

theorem classify_odd_beyond {s h : Nat} (hlt : h < s) : classify s true h = .uncorr :=
  (if_neg (Nat.ne_zero_of_lt hlt)).trans (if_neg (Nat.not_le.2 hlt))

/-- The two rows that no correction serves. -/
theorem classify_uncorr {s h : Nat} {o : Bool} (hs : s ≠ 0) (hu : o = false ∨ h < s) : classify s o h = .uncorr := by
  cases o with
  | false => exact classify_even h hs
  | true => exact classify_odd_beyond (hu.resolve_left nofun)

/-- Settles O38: by the rows of the table. -/
theorem decisionTable : Obligations.DecisionTable := fun _ h =>
  ⟨fun hs => ⟨classify_zero_even h hs, classify_zero_odd h hs⟩, classify_even h, classify_odd_within, classify_odd_beyond⟩

/-! What a correction completes with (43_correct.md R201, R202) -/

/-- A correction completes with the row of the decision table that its (y, o) select, if its numbers fit the registers. -/
theorem completed_correction (s : State) {post : List Bool → List Bool} {y : Nat} {o : Bool} {c : List Bool}
    (hy : y < 2 ^ 32) (hc : c.length < 2 ^ 32) (hpost : ∀ c', c'.length = c.length → (post c').length < 2 ^ 32) :
    let t := s.complete (correction post y o c)
    let m := (layoutOf c.length).m
    (y = 0 → o = false → Completed s t .ok 0 0 m (post c)) ∧
    (y = 0 → o = true → Completed s t .globalFix 0 1 m (post (flipBit c 0))) ∧
    (y ≠ 0 → o = true → y ≤ c.length - 1 → Completed s t .corrected y 1 m (post (flipBit c y))) ∧
    (y ≠ 0 → (o = false ∨ c.length - 1 < y) → Completed s t .uncorrectable y o.toNat m []) := by
  refine ⟨?_, ?_, ?_, ?_⟩
  · rintro rfl rfl
    exact completed_checkReport s .ok false hy hc (hpost _ rfl)
  · rintro rfl rfl
    exact completed_checkReport s .globalFix true hy hc (hpost _ (flipBit_length c 0))
  · rintro h0 rfl hle
    rw [correction, layoutOf, classify_odd_within h0 hle]
    exact completed_checkReport s .corrected true hy hc (hpost _ (flipBit_length c y))
  · intro h0 hu
    rw [correction, layoutOf, classify_uncorr h0 hu]
    exact completed_checkReport s .uncorrectable o hy hc (Nat.two_pow_pos 32)

/-! The command (43_correct.md R202) -/

theorem argSyndrome_eq (s : State) : s.argSyndrome = (s.arg2.extractLsb' 0 31).toNat :=
  (BitVec.extractLsb'_toNat 0 31 s.arg2).symm

theorem exec_correct_ok {s : State} (hn : s.arg.toNat ≤ nMax s.cfg) (hf : wellFormedLength s.arg.toNat = true)
    (hw : s.operandWritten s.arg.toNat = true) :
    exec .correct s = .next (s.complete (correction (fun c => c) (s.arg2.extractLsb' 0 31).toNat (s.arg2.getLsbD 31)
      (s.inBits s.arg.toNat))) := by
  simp only [exec, execCorrect, codewordOperand_ready hn hf hw, State.finish, argSyndrome_eq, State.argOverall, State.argNat]

/-- Settles O39: by the answer of the operand check, and the row that the (s, o) of ARG2 select. -/
theorem correctCommand : Obligations.CorrectCommand := by
  refine fun s => ⟨fun hn hf hw => ⟨_, exec_correct_ok hn hf hw, ?_⟩,
    fun hr => ⟨_, exec_codeword_fails rfl (codewordOperand_range hr), completed_raise s .range⟩,
    fun hn hf => ⟨_, exec_codeword_fails rfl (codewordOperand_malformed hn hf), completed_raise s .malformed⟩,
    fun hn hf hw => (exec_codeword_eq_fault rfl).2 (codewordOperand_unwritten hn hf hw)⟩
  have hy : (s.arg2.extractLsb' 0 31).toNat < 2 ^ 32 := (BitVec.isLt _).trans (by decide)
  have hc : (s.inBits s.arg.toNat).length < 2 ^ 32 := (inBits_length s _).symm ▸ s.arg.isLt
  have hrows := completed_correction s (post := fun c => c) (o := s.arg2.getLsbD 31) hy hc fun _ hl => hl ▸ hc
  rwa [inBits_length] at hrows

/-! The diagnosis of an encoded codeword with flips (43_correct.md R203) -/

theorem flipBit_flipBit {c : List Bool} {p : Nat} (h : p < c.length) : flipBit (flipBit c p) p = c := by
  refine ext_bitAt (by simp) fun i _ => ?_
  rw [bitAt_flipBit _ (by rwa [flipBit_length]), bitAt_flipBit c h, Bool.xor_assoc, Bool.xor_self, Bool.xor_false]

theorem synd_flips_enc {d : List Bool} {e : List Nat} (he : ∀ p ∈ e, p < (enc d).length) :
    synd (e.foldl flipBit (enc d)) = e.foldl (· ^^^ ·) 0 := by
  rw [synd_foldl_flipBit e _ he, synd_enc]

theorem ovc_flips_enc {d : List Bool} {e : List Nat} (he : ∀ p ∈ e, p < (enc d).length) :
    ovc (e.foldl flipBit (enc d)) = decide (e.length % 2 = 1) := by
  rw [ovc_foldl_flipBit e _ he, ovc_enc, Bool.false_xor]

/-- Two distinct indices do not XOR to 0. -/
theorem xor_ne_zero_of_length_eq_two {e : List Nat} (hnodup : e.Nodup) (h2 : e.length = 2) : e.foldl (· ^^^ ·) 0 ≠ 0 := by
  intro hxor
  have hlen := four_le_length_of_xor_eq_zero (List.ne_nil_of_length_eq_add_one h2) hnodup (by simp [h2]) hxor
  omega

/-- Settles O40: the flips leave the XOR of their indices as the syndrome and the parity of their number as the overall check,
which select the row of the decision table. -/
theorem diagnosisByErrorWeight : Obligations.DiagnosisByErrorWeight := by
  intro d e hnodup he
  simp only [synd_flips_enc he, ovc_flips_enc he]
  refine ⟨?none, ?global, ?single, fun h2 => ?two, fun hodd _ => ?odd, fun heven _ => ?even⟩
  case none =>
    intro h0
    rw [List.length_eq_zero_iff.1 h0]
    exact classify_zero_even _ rfl
  case global =>
    rintro rfl
    exact classify_zero_odd _ rfl
  case single =>
    rintro p rfl h0
    have hp : p < (enc d).length := he p (List.mem_singleton_self p)
    refine ⟨?_, flipBit_flipBit hp⟩
    rw [List.foldl_cons, List.foldl_nil, Nat.zero_xor]
    exact classify_odd_within h0 (Nat.le_sub_one_of_lt hp)
  case two =>
    rw [h2]
    exact classify_even _ (xor_ne_zero_of_length_eq_two hnodup h2)
  case odd =>
    rw [decide_eq_true hodd]
    exact ⟨classify_zero_odd _, classify_odd_within, classify_odd_beyond⟩
  case even =>
    rw [heven]
    exact ⟨classify_zero_even _, classify_even _⟩

end Sys2Proof.Machine
end

section
/-! PROOFS. The decoder (44_decode.md): the data positions of a codeword are dpos(1) to dpos(m), which DECODE extracts; the
command DECODE, and that it is CORRECT with the codeword's own (s, o); and what it reports of an encoded codeword with no, one
or two bits flipped. -/

namespace Sys2Proof.Machine

/-! What is extracted (44_decode.md R220) -/

/-- The data positions up to p, in order, are those of rank 1 up to their number. -/
theorem filter_positions_eq_map_dpos (p : Nat) :
    (positions p).filter (fun q => !isPow2 q) = (List.range (dataPositions p)).map (fun j => dpos (j + 1)) := by
  induction p with
  | zero => rfl
  | succ p ih =>
    rw [positions, List.range'_1_concat, List.filter_append, ← positions, ih, dataPositions_succ, Nat.add_comm 1 p]
    cases hp : isPow2 (p + 1) with
    | true => simp [hp]
    | false =>
      have hcount : dataPositions p + 1 = dataPositions (p + 1) := by simp [dataPositions_succ, hp]
      have hdpos : dpos (dataPositions p + 1) = p + 1 := by rw [hcount, dpos, hamming_dataPositions hp]
      simp [hp, List.range_succ, hdpos]

theorem layoutOf_m (n : Nat) : (layoutOf n).m = dataPositions (n - 1) :=
  Nat.sub_eq_of_eq_add (dataPositions_add_parityCount (n - 1)).symm

theorem extract_layoutOf (c : List Bool) (n : Nat) :
    extract c (layoutOf n).h = (List.range (layoutOf n).m).map (fun j => bitAt c (dpos (j + 1))) := by
  rw [extract, filter_positions_eq_map_dpos, List.map_map, layoutOf_m]
  rfl

@[simp] theorem extract_layoutOf_length (c : List Bool) (n : Nat) : (extract c (layoutOf n).h).length = (layoutOf n).m := by
  simp [extract_layoutOf]

theorem bitAt_extract_layoutOf (c : List Bool) {n j : Nat} (hj : j < (layoutOf n).m) :
    bitAt (extract c (layoutOf n).h) j = bitAt c (dpos (j + 1)) := by
  rw [extract_layoutOf, bitAt_map_range, decide_eq_true hj, Bool.true_and]

/-- The data come back out of their codeword. -/
theorem extract_enc (d : List Bool) : extract (enc d) (layoutOf (enc d).length).h = d := by
  have hm : (layoutOf (enc d).length).m = d.length := by rw [enc_length, layoutOf_hamming, layout]
  refine ext_bitAt (by rw [extract_layoutOf_length, hm]) fun j hj => ?_
  rw [extract_layoutOf_length] at hj
  rw [bitAt_extract_layoutOf _ hj]
  exact bitAt_enc_dpos d (Nat.succ_pos j) (hm ▸ hj)

/-- Every data position lies in the codeword. -/
theorem dpos_lt_of_wellFormed {n j : Nat} (hf : wellFormedLength n = true) (hj : j < (layoutOf n).m) : dpos (j + 1) < n := by
  obtain ⟨m, rfl⟩ := (wellFormedLength_iff n).1 hf
  rw [layoutOf_hamming] at hj
  exact Nat.lt_succ_of_le (Nat.add_le_add hj (rcount_mono hj))

/-! The command (44_decode.md R221) -/

/-- What DECODE reports of a codeword: its correction by its own syndrome and overall check, with the data extracted. -/
def decodeReport (c : List Bool) : Completion :=
  correction (fun c' => extract c' (layoutOf c.length).h) (synd c) (ovc c) c

theorem exec_decode_ok {s : State} (hn : s.arg.toNat ≤ nMax s.cfg) (hf : wellFormedLength s.arg.toNat = true)
    (hw : s.operandWritten s.arg.toNat = true) :
    exec .decode s = .next (s.complete (decodeReport (s.inBits s.arg.toNat))) := by
  rw [exec, execDecode, codewordOperand_ready hn hf hw]
  rfl

/-- Settles O41: by the answer of the operand check, and the row that the codeword's own (s, o) select. -/
theorem decodeCommand : Obligations.DecodeCommand := by
  refine fun s => ⟨fun hn hf hw => ⟨_, exec_decode_ok hn hf hw, ?_⟩,
    fun hr => ⟨_, exec_codeword_fails rfl (codewordOperand_range hr), completed_raise s .range⟩,
    fun hn hf => ⟨_, exec_codeword_fails rfl (codewordOperand_malformed hn hf), completed_raise s .malformed⟩,
    fun hn hf hw => (exec_codeword_eq_fault rfl).2 (codewordOperand_unwritten hn hf hw)⟩
  have hlen := inBits_length s s.arg.toNat
  have hm : (layoutOf s.arg.toNat).m < 2 ^ 32 := (layoutOf_m_le _).trans_lt s.arg.isLt
  have hrows := completed_correction s (post := fun c' => extract c' (layoutOf s.arg.toNat).h)
    (o := ovc (s.inBits s.arg.toNat)) (synd_lt_word (hlen.trans_le hn)) (hlen.trans_lt s.arg.isLt) fun c' _ => by
      rwa [extract_layoutOf_length]
  simp only [hlen, extract_layoutOf] at hrows
  simpa only [decodeReport, hlen, extract_layoutOf] using hrows

/-! DECODE and CORRECT (44_decode.md R222) -/

/-- DECODE reports what the bare correction by the same syndrome and overall check does, and extracts from what it puts out. -/
theorem decodeReport_eq_correction (c : List Bool) :
    let k := correction (fun c' => c') (synd c) (ovc c) c
    (decodeReport c).result = k.result ∧ (decodeReport c).res0 = k.res0 ∧ (decodeReport c).res1 = k.res1 ∧
      (decodeReport c).res2 = k.res2 ∧
      ((decodeReport c).result ≠ .uncorrectable → (decodeReport c).out = extract k.out (layoutOf c.length).h) := by
  unfold decodeReport correction
  cases fix c (classify (synd c) (ovc c) (layoutOf c.length).h) with
  | none => exact ⟨rfl, rfl, rfl, rfl, fun h => absurd rfl h⟩
  | some _ => exact ⟨rfl, rfl, rfl, rfl, fun _ => rfl⟩

/-- ARG2 holds the overall check above the syndrome (30_encoding.md R102). -/
theorem arg2Word_toNat {y : Nat} (o : Bool) (hy : y < 2 ^ 31) :
    (arg2Word (BitVec.ofNat 32 y) o).toNat = 2 ^ 31 * o.toNat + y := by
  rw [Nat.two_pow_add_eq_or_of_lt hy, arg2Word, BitVec.toNat_or, BitVec.toNat_ofNat, Nat.mod_eq_of_lt (hy.trans (by decide))]
  cases o <;> rfl

/-- The two fields of ARG2, read back from the word that holds them. -/
theorem arg2Word_fields {y : Nat} (o : Bool) (hy : y < 2 ^ 31) :
    ((arg2Word (BitVec.ofNat 32 y) o).extractLsb' 0 31).toNat = y ∧ (arg2Word (BitVec.ofNat 32 y) o).getLsbD 31 = o := by
  constructor
  · rw [BitVec.extractLsb'_toNat, Nat.shiftRight_zero, arg2Word_toNat o hy, Nat.mul_add_mod, Nat.mod_eq_of_lt hy]
  · rw [← BitVec.testBit_toNat, arg2Word_toNat o hy, Nat.testBit_two_pow_mul_add _ hy]
    cases o <;> rfl

theorem synd_lt_field {cfg : Config} {c : List Bool} (hn : c.length ≤ nMax cfg) : synd c < 2 ^ 31 :=
  (synd_lt c).trans_le
    (Nat.pow_le_pow_right (by decide) ((layoutOf_r_le_rMax hn).trans ((rMax_le cfg).trans (by decide))))

/-- Settles O42: both are a correction of one codeword by one (s, o), which ARG2 holds without loss; only the output differs. -/
theorem decodeIsSyndromeThenCorrect : Obligations.DecodeIsSyndromeThenCorrect := by
  intro s hn hf hw
  have hlen := inBits_length s s.arg.toNat
  obtain ⟨hy, ho⟩ := arg2Word_fields (ovc (s.inBits s.arg.toNat)) (synd_lt_field (hlen.trans_le hn))
  obtain ⟨hcode, h0, h1, h2, hout⟩ := decodeReport_eq_correction (s.inBits s.arg.toNat)
  refine ⟨_, _, exec_decode_ok hn hf hw, exec_correct_ok hn hf hw, ?_⟩
  simp only [hy, ho]
  refine ⟨hcode, congrArg (BitVec.ofNat 32) h0, congrArg (BitVec.ofNat 32) h1, congrArg (BitVec.ofNat 32) h2, fun hne => ?_⟩
  have hm : (layoutOf s.arg.toNat).m < 2 ^ 32 := (layoutOf_m_le _).trans_lt s.arg.isLt
  have hdata := hout hne
  rw [hlen] at hdata
  refine ⟨?_, fun j hj => ?_⟩
  · rw [complete_outLen, hdata, extract_layoutOf_length, BitVec.toNat_ofNat, Nat.mod_eq_of_lt hm]
  · have hpos := (dpos_lt_of_wellFormed hf hj).trans_le hn
    rw [complete_outBit _ _ (hj.trans_le ((layoutOf_m_le _).trans hn)), hdata, bitAt_extract_layoutOf _ hj]
    exact (complete_outBit _ _ hpos).symm

/-! Encoded codewords with flips (44_decode.md R223, R224, R225) -/

theorem decodeReport_enc (d : List Bool) : decodeReport (enc d) = checkReport .ok 0 false (enc d).length d := by
  rw [decodeReport, synd_enc, ovc_enc, correction, classify_zero_even _ rfl]
  exact congrArg (checkReport .ok 0 false _) (extract_enc d)

theorem decodeReport_flipBit {d : List Bool} {p : Nat} (hp : p < (enc d).length) :
    decodeReport (flipBit (enc d) p) = checkReport (if p = 0 then .globalFix else .corrected) p true (enc d).length d := by
  have hfix : fix (flipBit (enc d) p) (classify p true ((enc d).length - 1)) =
      some (if p = 0 then .globalFix else .corrected, enc d) := by
    by_cases h0 : p = 0
    · rw [classify_zero_odd _ h0, fix, if_pos h0, h0, flipBit_flipBit (h0 ▸ hp)]
    · rw [classify_odd_within h0 (Nat.le_sub_one_of_lt hp), fix, if_neg h0, flipBit_flipBit hp]
  rw [decodeReport, synd_flipBit hp, ovc_flipBit hp, synd_enc, ovc_enc, Nat.zero_xor, Bool.not_false, correction,
    flipBit_length, layoutOf, hfix]
  exact congrArg (checkReport _ p true _) (extract_enc d)

theorem decodeReport_flipBit_flipBit {d : List Bool} {p q : Nat} (hp : p < (enc d).length) (hq : q < (enc d).length)
    (hne : p ≠ q) : decodeReport (flipBit (flipBit (enc d) p) q) =
      checkReport .uncorrectable (p ^^^ q) false (enc d).length [] := by
  obtain ⟨_, _, htwo⟩ := syndromeLinear
  obtain ⟨hsynd, hxor, hovc⟩ := htwo d p q hp hq hne
  rw [decodeReport, hsynd, hovc, correction, classify_even _ hxor, fix, flipBit_length, flipBit_length]

/-- The codeword offered by a host that has copied an encoded codeword with the bits of distinct indices flipped. -/
theorem inBits_of_carries {s t u : State} {code : Result} {r0 r1 r2 : Nat} {c : List Bool} {e : List Nat}
    (ht : Completed s t code r0 r1 r2 c) (hc : c.length ≤ nMax s.cfg) (hu : Carries t u e) (hnodup : e.Nodup)
    (he : ∀ p ∈ e, p < c.length) : u.inBits u.arg.toNat = e.foldl flipBit c := by
  have hn : u.arg.toNat = c.length := hu.length.trans ht.outLen
  refine ext_bitAt (by simp [hn]) fun i hi => ?_
  have hi : i < c.length := by simpa [hn] using hi
  rw [bitAt_inBits, hn, decide_eq_true hi, Bool.true_and, hu.bits i (ht.outLen ▸ hi), ht.out i (hi.trans_le hc),
    bitAt_foldl_flipBit e c hnodup he]

/-- ENCODE completes, and DECODE then reports on its codeword with whatever distinct bits the host has flipped. -/
theorem exec_encode_decode {s : State} (hm : s.arg.toNat ≤ dataMax s.cfg) (hw : s.operandWritten s.arg.toNat = true) :
    ∃ t, exec .encode s = .next t ∧ t.outLen.toNat = (enc (s.inBits s.arg.toNat)).length ∧
      ∀ (u : State) (e : List Nat), e.Nodup → (∀ p ∈ e, p < t.outLen.toNat) → Carries t u e →
        u.cfg = s.cfg ∧
        exec .decode u = .next (u.complete (decodeReport (e.foldl flipBit (enc (s.inBits s.arg.toNat))))) := by
  obtain ⟨t, r, hexec, _, _, ht⟩ := (encodeCommand s).1 hm hw
  refine ⟨t, hexec, ht.outLen, fun u e hnodup he hu => ?_⟩
  have hcfg : u.cfg = s.cfg := hu.cfg.trans ht.kept.cfg
  have hlen : u.arg.toNat = s.arg.toNat + rcount s.arg.toNat + 1 := by
    rw [hu.length, ht.outLen, enc_length, inBits_length]
  have hfits : s.arg.toNat + rcount s.arg.toNat + 1 ≤ nMax s.cfg := layout_n_le hm
  have hbits := inBits_of_carries ht (by simpa using hfits) hu hnodup (ht.outLen ▸ he)
  exact ⟨hcfg, hbits ▸ exec_decode_ok (by rwa [hlen, hcfg]) ((wellFormedLength_iff _).2 ⟨_, hlen⟩) hu.written⟩

/-- A completion whose output is the data of another state's operand holds them in OUT. -/
theorem complete_holds_data {s u : State} {c : Completion} (hm : s.arg.toNat ≤ dataMax s.cfg) (hcfg : u.cfg = s.cfg)
    (hout : c.out = s.inBits s.arg.toNat) :
    (u.complete c).outLen = s.arg ∧ ∀ j, j < s.arg.toNat → (u.complete c).outBit j = s.inBit j := by
  refine ⟨by simp [hout], fun j hj => ?_⟩
  have hlt : j < nMax u.cfg := by
    rw [hcfg, nMax, hMax]
    omega
  rw [complete_outBit u c hlt, hout, bitAt_inBits, decide_eq_true hj, Bool.true_and]

/-- Settles O43: with no flip syndrome and overall check are 0, and the data positions hold the data. -/
theorem roundTrip : Obligations.RoundTrip := by
  intro s hm hw
  obtain ⟨t, hexec, _, hdecode⟩ := exec_encode_decode hm hw
  refine ⟨t, hexec, fun u hu => ?_⟩
  obtain ⟨hcfg, hrun⟩ := hdecode u [] List.nodup_nil nofun hu
  rw [List.foldl_nil, decodeReport_enc] at hrun
  exact ⟨_, hrun, rfl, complete_holds_data hm hcfg rfl⟩

/-- Settles O44: the syndrome is the index flipped, so the correction flips it back. -/
theorem singleErrorCorrected : Obligations.SingleErrorCorrected := by
  intro s hm hw
  obtain ⟨t, hexec, hlen, hdecode⟩ := exec_encode_decode hm hw
  refine ⟨t, hexec, fun u p hp hu => ?_⟩
  obtain ⟨hcfg, hrun⟩ := hdecode u [p] (List.nodup_singleton p) (by simpa using hp) hu
  rw [List.foldl_cons, List.foldl_nil, decodeReport_flipBit (hlen ▸ hp)] at hrun
  exact ⟨_, hrun, rfl, complete_holds_data hm hcfg rfl⟩

/-- Settles O45: the syndrome is p XOR q, not 0, and the overall check is even. -/
theorem doubleErrorDetected : Obligations.DoubleErrorDetected := by
  intro s hm hw
  obtain ⟨t, hexec, hlen, hdecode⟩ := exec_encode_decode hm hw
  refine ⟨t, hexec, fun u p q hp hq hne hu => ?_⟩
  obtain ⟨_, hrun⟩ := hdecode u [p, q] (by simpa using hne) (by simp [hp, hq]) hu
  rw [List.foldl_cons, List.foldl_cons, List.foldl_nil, decodeReport_flipBit_flipBit (hlen ▸ hp) (hlen ▸ hq) hne] at hrun
  exact ⟨_, hrun, rfl, rfl⟩

end Sys2Proof.Machine
end

section
/-! PROOFS. Results and errors (60_exceptions.md): how a command can end and with which code, what its completion leaves, that a
reserved command word completes with ILLEGAL_OP, and the issue and the idle cycles between completions. -/

namespace Sys2Proof.Machine

/-! How a command ends (60_exceptions.md R252, R254-R257) -/

/-- The (y, o) a command corrects by: CORRECT is given them in ARG2, DECODE computes them (43_correct.md R202, 44_decode.md
R221). -/
def CorrectsBy (i : Instr) (s : State) (y : Nat) (o : Bool) : Prop :=
  (i = .correct ∧ y = s.argSyndrome ∧ o = s.argOverall) ∨
    (i = .decode ∧ y = synd (s.inBits s.arg.toNat) ∧ o = ovc (s.inBits s.arg.toNat))

/-- Only CORRECT and DECODE correct. -/
theorem CorrectsBy.eq_or {i : Instr} {s : State} {y : Nat} {o : Bool} (h : CorrectsBy i s y o) :
    i = .correct ∨ i = .decode := h.imp And.left And.left

/-- The completions a command can end with: one for each failure, with its cause, and those of its successes by their code. -/
inductive Ending (i : Instr) (s : State) : Completion → Prop where
  | range (cause : OutOfRange i s) : Ending i s { result := .range }
  | malformed (cause : Malformed i s) : Ending i s { result := .malformed }
  | ok (c : Completion) (code : c.result = .ok) : Ending i s c
  | corrected (c : Completion) (command : i = .correct ∨ i = .decode)
      (code : c.result = .corrected ∨ c.result = .globalFix) : Ending i s c
  | uncorrectable (y : Nat) (o : Bool) (pair : CorrectsBy i s y o) :
      Ending i s (checkReport .uncorrectable y o s.arg.toNat [])

theorem exec_of_outOfRange {i : Instr} {s : State} (h : OutOfRange i s) : exec i s = .next (s.raise .range) := by
  cases i with
  | layout => exact exec_layout_range h
  | pclass => exact exec_pclass_range h
  | dpos => exact exec_dpos_range h
  | encode => exact exec_encode_range h
  | syndrome | correct | decode => exact exec_codeword_fails rfl (codewordOperand_range h)

theorem malformed_iff {i : Instr} {s : State} (h : takesCodeword i = true) :
    Malformed i s ↔ s.arg.toNat ≤ nMax s.cfg ∧ wellFormedLength s.arg.toNat = false := by
  simp only [Malformed, h, true_and, wellFormedLength_eq_false]

theorem exec_of_malformed {i : Instr} {s : State} (h : Malformed i s) : exec i s = .next (s.raise .malformed) := by
  obtain ⟨hle, hf⟩ := (malformed_iff h.1).1 h
  exact exec_codeword_fails h.1 (codewordOperand_malformed hle hf)

/-- A correction is a success with its code, or UNCORRECTABLE with the (y, o) it was made by. -/
theorem ending_correction {i : Instr} {s : State} {y : Nat} {o : Bool} (h : CorrectsBy i s y o)
    (post : List Bool → List Bool) : Ending i s (correction post y o (s.inBits s.arg.toNat)) := by
  unfold correction
  cases classify y o (layoutOf (s.inBits s.arg.toNat).length).h with
  | noErr => exact .ok _ rfl
  | globalErr => exact .corrected _ h.eq_or (.inr rfl)
  | single p => exact .corrected _ h.eq_or (.inl rfl)
  | uncorr =>
    rw [inBits_length]
    exact .uncorrectable y o h

/-- A codeword command ends with a failure of its operand check, or as its rule does on the codeword. -/
theorem ending_codeword {i : Instr} {s t : State} {rule : List Bool → Completion} (hi : takesCodeword i = true)
    (hrule : Ending i s (rule (s.inBits s.arg.toNat))) (h : s.finish s.codewordOperand rule = .next t) :
    ∃ c, t = s.complete c ∧ Ending i s c := by
  rcases codewordOperand_cases s with ⟨hr, hx⟩ | ⟨hr, hf, hx⟩ | ⟨_, _, _, hx⟩ | ⟨_, _, _, hx⟩ <;> rw [hx] at h <;> cases h
  · exact ⟨_, rfl, .range ((outOfRange_codeword_iff hi).2 hr)⟩
  · exact ⟨_, rfl, .malformed ((malformed_iff hi).2 ⟨hr, hf⟩)⟩
  · exact ⟨_, rfl, hrule⟩

theorem classReport_result (p : Nat) : (classReport p).result = .ok := by
  unfold classReport
  split
  · rfl
  · split <;> rfl

/-- A command that answers a next state has ended in one of the ways of `Ending`. -/
theorem exec_ending {i : Instr} {s t : State} (h : exec i s = .next t) : ∃ c, t = s.complete c ∧ Ending i s c := by
  by_cases hr : OutOfRange i s
  · rw [exec_of_outOfRange hr] at h
    cases h
    exact ⟨_, rfl, .range hr⟩
  cases i with
  | layout =>
    rw [exec_layout_ok (Nat.le_of_not_lt hr)] at h
    cases h
    exact ⟨_, rfl, .ok _ rfl⟩
  | pclass =>
    rw [exec_pclass_ok (Nat.le_of_not_lt hr)] at h
    cases h
    exact ⟨_, rfl, .ok _ (classReport_result _)⟩
  | dpos =>
    obtain ⟨h0, hle⟩ := not_or.1 hr
    rw [exec_dpos_ok (Nat.one_le_iff_ne_zero.2 h0) (Nat.le_of_not_lt hle)] at h
    cases h
    exact ⟨_, rfl, .ok _ rfl⟩
  | encode =>
    rcases dataOperand_cases s with ⟨hlt, _⟩ | ⟨_, _, hx⟩ | ⟨hle, hw, _⟩
    · exact absurd hlt hr
    · rw [exec_encode_eq_fault.2 hx] at h
      cases h
    · rw [exec_encode_ok hle hw] at h
      cases h
      exact ⟨_, rfl, .ok _ rfl⟩
  | syndrome => exact ending_codeword rfl (.ok _ rfl) h
  | correct => exact ending_codeword rfl (ending_correction (.inl ⟨rfl, rfl, rfl⟩) _) h
  | decode => exact ending_codeword (rule := decodeReport) rfl (ending_correction (.inr ⟨rfl, rfl, rfl⟩) _) h

/-- Each code of a failed check has one cause. -/
theorem exec_failure_cause {i : Instr} {s t : State} (h : exec i s = .next t) :
    (t.result = .range → OutOfRange i s) ∧ (t.result = .malformed → Malformed i s) := by
  obtain ⟨c, rfl, hend⟩ := exec_ending h
  rw [complete_result]
  cases hend with
  | range cause => exact ⟨fun _ => cause, nofun⟩
  | malformed cause => exact ⟨nofun, fun _ => cause⟩
  | ok _ code => simp [code]
  | corrected _ _ code => rcases code with code | code <;> simp [code]
  | uncorrectable => exact ⟨nofun, nofun⟩

/-- Settles O46: the RANGE check comes first, and no other ending has its code. -/
theorem rangeExactly : Obligations.RangeExactly := fun _ s =>
  ⟨fun hr => ⟨_, exec_of_outOfRange hr, completed_raise s .range⟩, fun _ h => (exec_failure_cause h).1⟩

/-- Settles O47: a length that passes RANGE and is no codeword's fails before IN is looked at, and no other ending has its code. -/
theorem malformedExactly : Obligations.MalformedExactly := fun _ s =>
  ⟨fun hm => ⟨_, exec_of_malformed hm, completed_raise s .malformed⟩, fun _ h => (exec_failure_cause h).2⟩

theorem takesCodeword_eq_false {i : Instr} (h : i ∈ [.layout, .pclass, .dpos, .encode]) : takesCodeword i = false := by
  fin_cases h <;> rfl

/-- Settles O49: by the codes of the endings; MALFORMED needs a codeword command, and the three of a correction CORRECT or
DECODE. -/
theorem codesOfCommands : Obligations.CodesOfCommands := by
  intro i s t h
  obtain ⟨c, rfl, hend⟩ := exec_ending h
  rw [complete_result]
  cases hend with
  | range => simp
  | malformed cause =>
    refine ⟨nofun, nofun, fun hi => ?_, fun _ => ⟨nofun, nofun, nofun⟩⟩
    exact absurd ((takesCodeword_eq_false hi).symm.trans cause.1) Bool.false_ne_true
  | ok _ code => simp [code]
  | corrected _ hi code => rcases hi with rfl | rfl <;> rcases code with code | code <;> simp [code]
  | uncorrectable _ _ hc => rcases hc.eq_or with rfl | rfl <;> simp [checkReport]

/-! What a completion leaves (60_exceptions.md R256, R257, R262) -/

/-- The syndrome of a codeword whose length is a register's value fits a register. -/
theorem synd_inBits_lt (s : State) : synd (s.inBits s.arg.toNat) < 2 ^ 32 := by
  have hr : parityCount (s.arg.toNat - 1) ≤ 32 := Nat.le_of_not_lt fun hlt =>
    absurd ((lt_parityCount_iff.1 hlt).trans (Nat.sub_le _ _)) (Nat.not_le.2 s.arg.isLt)
  have hy := synd_lt (s.inBits s.arg.toNat)
  rw [inBits_length] at hy
  exact hy.trans_le (Nat.pow_le_pow_right (by decide) hr)

theorem CorrectsBy.lt {i : Instr} {s : State} {y : Nat} {o : Bool} (h : CorrectsBy i s y o) : y < 2 ^ 32 := by
  rcases h with ⟨_, rfl, _⟩ | ⟨_, rfl, _⟩
  · exact (Nat.mod_lt _ (by decide)).trans (by decide)
  · exact synd_inBits_lt s

/-- A completion without output leaves OUTLEN and OUT zero (10_state.md R52). -/
theorem complete_outLen_outBit_of_nil (s : State) {c : Completion} (h : c.out = []) :
    (s.complete c).outLen = 0 ∧ ∀ j < nMax s.cfg, (s.complete c).outBit j = false := by
  refine ⟨?_, fun j hj => ?_⟩
  · rw [complete_outLen, h]
    rfl
  · rw [complete_outBit s c hj, h, bitAt_nil]

/-- Settles O50: no failing ending has an output, and only UNCORRECTABLE has words, which fit their registers. -/
theorem failureLeavesNoOutput : Obligations.FailureLeavesNoOutput := by
  intro i s t h hcode
  obtain ⟨c, rfl, hend⟩ := exec_ending h
  rw [complete_result] at hcode
  cases hend with
  | range | malformed =>
    obtain ⟨hlen, hout⟩ := complete_outLen_outBit_of_nil s (c := { result := _ }) rfl
    exact ⟨hlen, hout, fun _ => ⟨rfl, rfl, rfl⟩, nofun⟩
  | ok _ code => simp [code] at hcode
  | corrected _ _ code => rcases code with code | code <;> simp [code] at hcode
  | uncorrectable y o hc =>
    obtain ⟨hlen, hout⟩ := complete_outLen_outBit_of_nil s (c := checkReport .uncorrectable y o s.arg.toNat []) rfl
    have hwords := completed_checkReport s .uncorrectable o (out := []) hc.lt s.arg.isLt (Nat.two_pow_pos 32)
    refine ⟨hlen, hout, fun hne => absurd rfl hne, fun _ => ⟨hwords.res2, ?_⟩⟩
    rw [hwords.res0, hwords.res1]
    rcases hc with ⟨hi, rfl, rfl⟩ | ⟨hi, rfl, rfl⟩
    · exact .inl ⟨hi, rfl, rfl⟩
    · exact .inr ⟨hi, rfl, rfl⟩

/-- Settles O51: a command's output fits the buffer, so OUTLEN is its length. -/
theorem completionFrame : Obligations.CompletionFrame := by
  intro i s t h
  obtain ⟨c, rfl, hc⟩ := exec_fits h
  have hlen : (s.complete c).outLen.toNat = c.out.length := by
    rw [complete_outLen, BitVec.toNat_ofNat, Nat.mod_eq_of_lt (Nat.lt_of_le_of_lt hc.length (nMax_lt _))]
  rw [hlen]
  refine ⟨kept_complete s c, rfl, rfl, rfl, hc.length, fun j hj hn => ?_⟩
  rw [complete_outBit s c hn, bitAt_eq_false hj]

/-! Reserved command words (60_exceptions.md R253) -/

/-- The decoder takes no command from a word with a bit of CMD[31:4] set, or with CMD[3:0] outside 1 to 7. -/
theorem decodeCmd_illegal {w : Word}
    (h : w.extractLsb' 4 28 ≠ 0 ∨ (w.extractLsb' 0 4).toNat = 0 ∨ 8 ≤ (w.extractLsb' 0 4).toNat) :
    ∃ why, decodeCmd w = .illegal why := by
  cases hd : decodeCmd w with
  | illegal why => exact ⟨why, rfl⟩
  | command i =>
    obtain ⟨h1, h7⟩ := encode_toNat_bounds i
    rw [← (decodeCmd_eq_command_iff w i).1 hd] at h1 h7
    rw [ne_eq, ← BitVec.toNat_inj, BitVec.extractLsb'_toNat, BitVec.extractLsb'_toNat] at h
    simp only [Nat.shiftRight_eq_div_pow, Nat.reducePow, BitVec.ofNat_eq_ofNat, BitVec.toNat_zero] at h
    omega

/-- Settles O3: the host's part leaves CMD alone, and the completion of an illegal word looks at no operand. -/
theorem illegalCommandCompletes : Obligations.IllegalCommandCompletes := by
  intro s u hf hr hu hw
  obtain ⟨_, hcmd, _⟩ := hostEffect_busy (hostPart_effect hr hu) (busy_eq_true.2 ⟨0, hf⟩)
  obtain ⟨why, hd⟩ := decodeCmd_illegal hw
  refine ⟨u.raise .illegalOp, ?_, completed_raise u .illegalOp⟩
  rw [step_of_hostPart_next hr hu, hf, State.blockPart, State.completionStep, hcmd, hd]

/-! Issue and the idle cycles (60_exceptions.md R261, R263) -/

/-- Settles O16: an idle block does in a step what the host's part of it does, which issues. -/
theorem cmdWriteIssues : Obligations.CmdWriteIssues := by
  intro s v hidle hw
  have hu := (hostPart_writeCsr (r := .cmd) hw).trans (congrArg _ (if_neg (Bool.eq_false_iff.1 hidle)))
  rw [step_of_hostPart_next (not_resetNext_of_writeNext hw) hu, busy_eq_false.1 hidle]
  exact ⟨_, rfl⟩

/-- No transaction touches RES0-RES2, OUTLEN, whether OUT is valid, or OUT, which IN lies below (20_memory.md R72, R78). -/
theorem hostEffect_results {s u : State} (h : HostEffect s u) :
    u.res0 = s.res0 ∧ u.res1 = s.res1 ∧ u.res2 = s.res2 ∧ u.outLen = s.outLen ∧ u.outValid = s.outValid ∧
      ∀ a, outBase ≤ a → u.mem.readByte a = s.mem.readByte a := by
  cases h with
  | store a j v host idle live write names =>
    refine ⟨rfl, rfl, rfl, rfl, rfl, fun x hx => ?_⟩
    exact storeIn_readByte_outside s j v (.inr ((inWord_below_outBase live).trans hx))
  | _ => exact ⟨rfl, rfl, rfl, rfl, rfl, fun _ _ => rfl⟩

theorem hostEffect_result_change {s u : State} (h : HostEffect s u) (hne : u.result ≠ s.result) :
    ∃ v, WriteNext s 0x00000 v := by
  cases h with
  | issue v host idle write => exact ⟨v, write⟩
  | _ => exact absurd rfl hne

/-- Settles O56: an idle step without reset is the host's part alone. -/
theorem resultsStayReadable : Obligations.ResultsStayReadable := by
  intro s t hidle hr h
  have hf := busy_eq_false.1 hidle
  rcases step_cases h with ⟨p, rest, hh, hp, _⟩ | ⟨u, _, _, he, ⟨_, rfl⟩ | ⟨k, hk, _⟩ | ⟨hk, _⟩⟩
  · exact absurd ⟨p, rest, hh, hp⟩ hr
  · obtain ⟨h0, h1, h2, hlen, hvalid, hmem⟩ := hostEffect_results he
    exact ⟨h0, h1, h2, hlen, hvalid, hmem, hostEffect_result_change he⟩
  · exact absurd (hf.symm.trans hk) nofun
  · exact absurd (hf.symm.trans hk) nofun

/-! The step of a placed command -/

/-- The step of a state that `placeCommand` built is the completion of the word placed: the idle cycle at the head of the queue
makes no transaction. -/
theorem step_placeCommand (s : State) (w : Word) : step (s.placeCommand w) =
    { s with cmd := w, inflight := some 0, done := false, result := .none, rdata := none }.completionStep := by
  have hr : ¬ ResetNext (s.placeCommand w) := not_resetNext_of_resetDriven rfl
  exact step_of_hostPart_next hr rfl

/-- Settles O20: an idle port leaves the state but for the read port, and a command's word decodes to the command. -/
theorem stepRunsDecodedCommand : Obligations.StepRunsDecodedCommand := by
  refine ⟨fun s i => step_of_inflight_zero, fun s i => ?_⟩
  have hw : BitVec.ofNat 32 ((encode i).toNat % 2 ^ 32) = encode i := by
    rw [Nat.mod_eq_of_lt (encode i).isLt, BitVec.ofNat_toNat, BitVec.setWidth_eq]
  rw [State.withFetchWord, hw, step_placeCommand]
  exact completionStep_of_command ((decodeCmd_eq_command_iff _ i).2 rfl)

end Sys2Proof.Machine
end

section
/-! PROOFS. Reset (70_reset_and_hazards.md): the values of the state after reset, and the reset edge, whatever the cycle drives. -/

namespace Sys2Proof.Machine

theorem forall_inWritten_eq_false_of_mem_nil {s : State} (h : s.mem = []) :
    ∀ j, j < bufferWords s.cfg → s.inWritten j = false :=
  fun _ hj => inWritten_of_mem_nil h (lt_of_lt_of_le hj (bufferWords_le _))

/-- STATUS reads 0 when BUSY, DONE, OVR and RESULT are 0 (10_state.md R33). -/
theorem status_eq_zero {s : State} (hf : s.inflight = none) (hd : s.done = false) (ho : s.ovr = false)
    (hr : s.result = .none) : s.status = 0 := by
  rw [State.status, State.busy, hf, hd, ho, hr]
  rfl

/-- Settles O5: the fields are the ones listed, the empty memory leaves no IN word written, and the two configuration registers
read without a check of BUSY. -/
theorem resetValues : Obligations.ResetValues :=
  ⟨rfl, rfl, rfl, status_eq_zero rfl rfl rfl rfl, rfl, rfl, rfl, rfl, rfl, forall_inWritten_eq_false_of_mem_nil rfl, rfl, rfl, rfl⟩

/-- A step in which rst is 1 is the reset edge, but for the read port, the queue and the draws (70_reset_and_hazards.md R280). -/
theorem step_of_resetNext {s : State} (h : ResetNext s) :
    ∃ r d, step s = .next { s.afterReset with rdata := r, host := s.host.tail, draws := d } := by
  obtain ⟨p, rest, hd⟩ := resetDriven_of_resetNext h
  obtain ⟨hh, _⟩ := resetNext_of_resetDriven hd
  obtain ⟨r, d, ht⟩ := resetPart_eq s p rest
  refine ⟨r, d, ?_⟩
  rw [step, clockCycle, hd, hh, List.tail_cons, ← ht]

/-- Settles O6: the reset edge has the reset values and an empty memory, whatever the cycle drives. -/
theorem resetEdge : Obligations.ResetEdge := by
  intro s h
  obtain ⟨r, d, hstep⟩ := step_of_resetNext h
  exact ⟨_, hstep, rfl, rfl, rfl, rfl, status_eq_zero rfl rfl rfl rfl, rfl, rfl, rfl, rfl, rfl,
    forall_inWritten_eq_false_of_mem_nil rfl, rfl, rfl⟩

end Sys2Proof.Machine
end

section
/-! PROOFS. The registers (10_state.md section 2): what a read of each returns and a write to each does while BUSY = 0. -/

namespace Sys2Proof.Machine

theorem readResult_idle {s : State} (h : s.busy = false) (v : Word) : s.readResult v = s.giveRead v :=
  if_neg (Bool.eq_false_iff.1 h)

theorem hostPart_writeArg {s : State} {v : Word} (hidle : s.busy = false) (h : WriteNext s 0x00008 v) :
    s.hostPart = .next { s with arg := v, rdata := none, host := s.host.tail } :=
  (hostPart_writeCsr (r := .arg) h).trans (congrArg _ (if_neg (Bool.eq_false_iff.1 hidle)))

theorem hostPart_writeArg2 {s : State} {v : Word} (hidle : s.busy = false) (h : WriteNext s 0x0000C v) :
    s.hostPart = .next { s with arg2 := v, rdata := none, host := s.host.tail } :=
  (hostPart_writeCsr (r := .arg2) h).trans (congrArg _ (if_neg (Bool.eq_false_iff.1 hidle)))

/-- Settles O9: each offset is a register's; an idle block gives the value of a result register too. -/
theorem registerReads : Obligations.RegisterReads := by
  intro s a v hidle hmem hr
  obtain ⟨r, rfl, hv⟩ : ∃ r, a = csrOffset r ∧ s.readCsr r = s.giveRead v := by
    simp only [List.mem_cons, List.not_mem_nil, or_false, Prod.mk.injEq] at hmem
    have hres := readResult_idle hidle
    rcases hmem with ⟨rfl, rfl⟩ | ⟨rfl, rfl⟩ | ⟨rfl, rfl⟩ | ⟨rfl, rfl⟩ | ⟨rfl, rfl⟩ | ⟨rfl, rfl⟩ | ⟨rfl, rfl⟩ | ⟨rfl, rfl⟩ |
      ⟨rfl, rfl⟩ | ⟨rfl, rfl⟩
    exacts [⟨.cmd, rfl, rfl⟩, ⟨.status, rfl, rfl⟩, ⟨.arg, rfl, rfl⟩, ⟨.arg2, rfl, rfl⟩, ⟨.res0, rfl, hres _⟩,
      ⟨.res1, rfl, hres _⟩, ⟨.res2, rfl, hres _⟩, ⟨.outLen, rfl, hres _⟩, ⟨.cfgMmax, rfl, rfl⟩, ⟨.cfgNmax, rfl, rfl⟩]
  rw [hostPart_readCsr hr, hv, State.giveRead]

/-- Settles O15: an idle block accepts the write to ARG or ARG2, and a read-only register ignores one without a check of BUSY. -/
theorem registerWrites : Obligations.RegisterWrites := by
  refine fun s v => ⟨hostPart_writeArg, hostPart_writeArg2, fun a hmem hw => ?_⟩
  obtain ⟨r, rfl, hignored⟩ : ∃ r, a = csrOffset r ∧ ∀ t : State, t.writeCsr v r = t := by
    simp only [List.mem_cons, List.not_mem_nil, or_false] at hmem
    rcases hmem with rfl | rfl | rfl | rfl | rfl | rfl
    exacts [⟨.res0, rfl, fun _ => rfl⟩, ⟨.res1, rfl, fun _ => rfl⟩, ⟨.res2, rfl, fun _ => rfl⟩, ⟨.outLen, rfl, fun _ => rfl⟩,
      ⟨.cfgMmax, rfl, fun _ => rfl⟩, ⟨.cfgNmax, rfl, fun _ => rfl⟩]
  rw [hostPart_writeCsr hw, hignored]

end Sys2Proof.Machine
end

section
/-! PROOFS. The host's words (30_encoding.md): the CMD values of the opcode map, and what the transactions of the
pseudo-instructions leave. -/

namespace Sys2Proof.Machine

/-! The opcode map (30_encoding.md R103) -/

theorem decodeCmd_encode (i : Instr) : decodeCmd (encode i) = .command i := (decodeCmd_eq_command_iff _ i).2 rfl

/-- Settles O1: the words listed are the encodings of the commands. -/
theorem commandWordsDecode : Obligations.CommandWordsDecode :=
  ⟨decodeCmd_encode .layout, decodeCmd_encode .pclass, decodeCmd_encode .dpos, decodeCmd_encode .encode,
    decodeCmd_encode .syndrome, decodeCmd_encode .correct, decodeCmd_encode .decode⟩

/-! The pseudo-instructions (30_encoding.md R110, R112) -/

theorem writeNext_wr (s : State) (r : Csr) (v : Word) (rest : List HostStep) :
    WriteNext { s with host := wr r v :: rest } (csrOffset r) v := ⟨_, rest, rfl, rfl, rfl, rfl, rfl, rfl⟩

/-- A step of an idle block in which the host writes is the host's part alone. -/
theorem step_of_write_idle {s u : State} {a : Offset} {v : Word} (hw : WriteNext s a v) (hidle : s.busy = false)
    (hu : s.hostPart = .next u) : step s = .next u := by
  rw [step_of_hostPart_next (not_resetNext_of_writeNext hw) hu, busy_eq_false.1 hidle, State.blockPart]

theorem step_wr_arg {s : State} (hidle : s.busy = false) (v : Word) (rest : List HostStep) :
    step { s with host := wr .arg v :: rest } = .next { s with arg := v, rdata := none, host := rest } :=
  have hw := writeNext_wr s .arg v rest
  step_of_write_idle hw hidle (hostPart_writeArg hidle hw)

theorem step_wr_arg2 {s : State} (hidle : s.busy = false) (v : Word) (rest : List HostStep) :
    step { s with host := wr .arg2 v :: rest } = .next { s with arg2 := v, rdata := none, host := rest } :=
  have hw := writeNext_wr s .arg2 v rest
  step_of_write_idle hw hidle (hostPart_writeArg2 hidle hw)

theorem step_wr_cmd {s : State} (hidle : s.busy = false) (v : Word) (rest : List HostStep) :
    step { s with host := wr .cmd v :: rest } = .next ({ s with rdata := none, host := rest }.issue v) :=
  have hw := writeNext_wr s .cmd v rest
  step_of_write_idle hw hidle ((hostPart_writeCsr hw).trans (congrArg _ (if_neg (Bool.eq_false_iff.1 hidle))))

theorem cycles_succ_of_next {k : Nat} {s t : State} (h : step s = .next t) : cycles (k + 1) s = cycles k t := by
  rw [cycles_succ, h]

/-- The two transactions of a command with one operand. -/
theorem cycles_arg_cmd {s : State} (hidle : s.busy = false) (x v : Word) :
    cycles 2 { s with host := [wr .arg x, wr .cmd v] } = .next ({ s with arg := x, rdata := none, host := [] }.issue v) := by
  rw [cycles_succ_of_next (step_wr_arg hidle x _), cycles_one]
  exact step_wr_cmd (s := { s with arg := x, rdata := none }) hidle v []

/-- The three transactions of CORRECT. -/
theorem cycles_arg_arg2_cmd {s : State} (hidle : s.busy = false) (x y v : Word) :
    cycles 3 { s with host := [wr .arg x, wr .arg2 y, wr .cmd v] } =
      .next ({ s with arg := x, arg2 := y, rdata := none, host := [] }.issue v) := by
  rw [cycles_succ_of_next (step_wr_arg hidle x _),
    cycles_succ_of_next (step_wr_arg2 (s := { s with arg := x, rdata := none }) hidle y _), cycles_one]
  exact step_wr_cmd (s := { s with arg := x, arg2 := y, rdata := none }) hidle v []

/-- What the command pseudo-instructions with one operand stand for (30_encoding.md R112). -/
theorem encodeStmt_of_unary {x : Word} {st : Stmt} {i : Instr}
    (h : (st, i) ∈ [(Stmt.layout x, Instr.layout), (.pclass x, .pclass), (.dpos x, .dpos), (.encode x, .encode),
      (.syndrome x, .syndrome), (.decode x, .decode)]) : encodeStmt st = [wr .arg x, wr .cmd (encode i)] := by
  simp only [List.mem_cons, List.not_mem_nil, or_false, Prod.mk.injEq] at h
  rcases h with ⟨rfl, rfl⟩ | ⟨rfl, rfl⟩ | ⟨rfl, rfl⟩ | ⟨rfl, rfl⟩ | ⟨rfl, rfl⟩ | ⟨rfl, rfl⟩ <;> rfl

/-- The word that CORRECT writes to ARG2, its s being below 2^31, holds s in the low field (30_encoding.md R102, R112). -/
theorem argSyndrome_of_arg2Word {s : State} {y : Word} {o : Bool} (h : s.arg2 = arg2Word y o) (hy : y.toNat < 2 ^ 31) :
    s.argSyndrome = y.toNat := by
  have hlow := (arg2Word_fields o hy).1
  rwa [BitVec.ofNat_toNat, BitVec.setWidth_eq, ← h, ← argSyndrome_eq] at hlow

/-- The same word holds o in ARG2[31] (30_encoding.md R102, R112). -/
theorem argOverall_of_arg2Word {s : State} {y : Word} {o : Bool} (h : s.arg2 = arg2Word y o) (hy : y.toNat < 2 ^ 31) :
    s.argOverall = o := by
  have htop := (arg2Word_fields o hy).2
  rwa [BitVec.ofNat_toNat, BitVec.setWidth_eq, ← h] at htop

/-- Settles O4: the operand writes are accepted one after another and the write to CMD issues; CLEAR is a write to STATUS with
bits 1 and 2 set. -/
theorem pseudoInstructionsIssue : Obligations.PseudoInstructionsIssue := by
  refine fun s hidle => ⟨fun x st i hmem => ?_, fun n y o hf => ?_, ?_⟩
  · rw [encodeStmt_of_unary hmem]
    exact ⟨_, cycles_arg_cmd hidle x (encode i), rfl, rfl, rfl, rfl, rfl⟩
  · have hy : y.toNat < 2 ^ 31 := of_decide_eq_true hf
    exact ⟨_, cycles_arg_arg2_cmd hidle n (arg2Word y o) (encode .correct), rfl, argSyndrome_of_arg2Word rfl hy,
      argOverall_of_arg2Word rfl hy, rfl, rfl, rfl, rfl⟩
  · have hw : WriteNext { s with host := encodeStmt .clear } 0x00004 0x6 := writeNext_wr s .status 0x6 []
    simpa [encodeStmt] using step_of_write_idle hw hidle (hostPart_writeStatus hw)

end Sys2Proof.Machine
end
